-- ==== Sys2Proof/Word.lean ====
section
/-! DEFINITION. The word types of the CHIP-8 core (spec/00_scope.md R7, R9, R10). -/

namespace Sys2Proof

/-- An 8-bit value: a general register, a timer, a memory byte, the immediate `byte` (R7, R15). -/
abbrev Byte := BitVec 8

/-- A 16-bit value: I, PC, a stack slot, KEYS, an instruction word (R7). -/
abbrev Word := BitVec 16

/-- The 12-bit field `addr` (R7, R15). -/
abbrev Addr := BitVec 12

/-- The 4-bit immediate `nibble` (R15). -/
abbrev Nibble := BitVec 4

/-- A register index: a 4-bit field, so always in [0,16) (R20). -/
abbrev Reg := Fin 16

/-- `V[15]`, the conventional flag register VF (R21). -/
abbrev VF : Reg := 15

end Sys2Proof
end

