-- ==== Sys2Proof/Config.lean ====
section
/-! DEFINITION. What the spec leaves to the implementation (spec/00_scope.md R8): the two points it marks OPEN are
constants without a body, so no proof can see a value; the type of the parameter SHL_VF_BIT stands here too. The two
parameters for which R8 lists a value (SHL_VF_BIT and FONT) are in Sys2Proof/Machine/Params.lean. -/

namespace Sys2Proof.Config

/-- The two values of the parameter SHL_VF_BIT (R8, R189): which bit of Vy the instruction SHL copies into VF. -/
inductive ShlVfBit where
  | low
  | high
deriving DecidableEq, Repr

/-- The parameter TIMERS_DURING_KEY_WAIT, OPEN in the spec (R8, R129, D20): whether the timers count down in a held
tick. FREE VALUE, log entry 4. -/
opaque timersDuringKeyWait : Bool

/-- The RNG draw oracle, OPEN in the spec (R8, R14, R31, D19): `rngDraw k` is the byte of the k-th draw. Nothing is
known of it but its range 0..255. FREE VALUE, log entry 3. -/
opaque rngDraw : Nat → Byte

end Sys2Proof.Config
end

