-- ==== Sys2Proof/Machine/Params.lean ====
section
/-! DEFINITION. The two parameters for which spec/00_scope.md R8 lists a value: SHL_VF_BIT and FONT. They stand here,
and not in Config, because a test of the hardware could show either of them wrong. -/

namespace Sys2Proof.Machine

/-- SHL_VF_BIT = LOW, the value R8 lists (R3, R189, C2, D13). Log entry 5; what SHL does is written for both values
(`shlVfOf`, `shlBy`). -/
def shlVfBit : Config.ShlVfBit := .low

/-- FONT: the default table of R36, glyph after glyph, for MEM[0x000..0x04F]. Log entry 6. -/
def fontRom : List Byte :=
  [0xF0, 0x90, 0x90, 0x90, 0xF0] ++ [0x20, 0x60, 0x20, 0x20, 0x70] ++ [0xF0, 0x10, 0xF0, 0x80, 0xF0] ++
  [0xF0, 0x10, 0xF0, 0x10, 0xF0] ++ [0x90, 0x90, 0xF0, 0x10, 0x10] ++ [0xF0, 0x80, 0xF0, 0x10, 0xF0] ++
  [0xF0, 0x80, 0xF0, 0x90, 0xF0] ++ [0xF0, 0x10, 0x20, 0x40, 0x40] ++ [0xF0, 0x90, 0xF0, 0x90, 0xF0] ++
  [0xF0, 0x90, 0xF0, 0x10, 0xF0] ++ [0xF0, 0x90, 0xF0, 0x90, 0x90] ++ [0xE0, 0x90, 0xE0, 0x90, 0xE0] ++
  [0xF0, 0x80, 0x80, 0x80, 0xF0] ++ [0xE0, 0x90, 0x90, 0x90, 0xE0] ++ [0xF0, 0x80, 0xF0, 0x80, 0xF0] ++
  [0xF0, 0x80, 0xF0, 0x80, 0x80]

end Sys2Proof.Machine
end

