-- ==== Sys2Proof/Machine/Flags.lean ====
section
/-! DEFINITION. The values of VF, the conventional flag register (spec/10_state.md R21), one function each. -/

namespace Sys2Proof.Machine

/-- A flag as the register value 1 or 0. -/
def flag (c : Bool) : Byte := if c then 1 else 0

/-- ADD Vx,Vy: 1 exactly when the unsigned 9-bit sum exceeds 255 (R181, R191). -/
def carryFlag (a b : Byte) : Byte := flag (decide (a.toNat + b.toNat > 255))

/-- SUB and SUBN: 1 exactly when `a > b`, unsigned and strict (R186, R187, R191). -/
def greaterFlag (a b : Byte) : Byte := flag (decide (a.toNat > b.toNat))

/-- SHR: the low bit of Vy, the bit shifted out (R188). -/
def shrFlag (b : Byte) : Byte := b &&& 0x01

/-- SHL: the bit of Vy that SHL_VF_BIT selects (R189). -/
def shlVfOf (sel : Config.ShlVfBit) (b : Byte) : Byte :=
  match sel with
  | .low => b &&& 0x01
  | .high => (b >>> 7) &&& 0x01

/-- DRW: 1 on collision (R201, R204). -/
def collisionFlag (c : Bool) : Byte := flag c

end Sys2Proof.Machine
end

