-- ==== Sys2Proof/Machine/State.lean ====
section
/-! DEFINITION. The state of the machine (spec/10_state.md R20 to R33), the reasons a step can stop, and reset (R37,
spec/70_reset_and_hazards.md R250 to R252). -/

namespace Sys2Proof.Machine

/-- The causes of a fault (spec/60_exceptions.md R220). A fault is not a stop of the model: it is recorded in STATUS, and
its entry (R127, R221) is a next state. The codes are `FaultCause.code`. -/
inductive FaultCause where
  /-- The fetched word decodes as INVALID; raised by the tick (R122). -/
  | invalidInstruction
  /-- PC is odd at the fetch; raised by the tick (R121). -/
  | misalignedFetch
  /-- PC is above 0xFFE at the fetch; raised by the tick (R121). -/
  | fetchOutOfBounds
  /-- A data byte address is above 0xFFF; raised by LD B, LD [I], LD Vx,[I] and DRW (R168, R169, R170, R201). -/
  | memOutOfBounds
  /-- CALL with SP = 16 (R145). -/
  | stackOverflow
  /-- RET with SP = 0 (R142). -/
  | stackUnderflow
  /-- Any SYS (R141). -/
  | sysNotImplemented
  /-- DRW with n = 0 (R201). -/
  | drawHeightZero
  /-- SKP or SKNP with V[x] above 15 (R150, R151). -/
  | keyOutOfRange
  /-- Execute applied to a shape outside the 35 forms (R132); never raised by a tick. -/
  | unsupportedShape
deriving DecidableEq, Repr

/-- STATUS (R33): the run status. -/
inductive Status where
  | running
  | faulted (c : FaultCause)
deriving DecidableEq, Repr

/-- Memory (R27, R50): the bytes that differ from what an unlisted address reads as, by strictly rising address
(`Memory.wf`). An unlisted address reads as its reset content (`initialByte`, R37). -/
abbrev Memory := List Host.Cell

/-- SCREEN (R30): 32 rows of 64 pixels, one boolean each. -/
abbrev Screen := Vector (Vector Bool 64) 32

/-- The whole machine state, in the order of R20 to R33. -/
structure State where
  /-- `V[0]` .. `V[15]` (R20, R21). -/
  v : Vector Byte 16
  /-- The index register I (R23). -/
  i : Word
  /-- The delay timer DT (R24). -/
  dt : Byte
  /-- The sound timer ST (R24). -/
  st : Byte
  /-- The program counter PC (R25). -/
  pc : Word
  /-- The stack pointer SP: the number of occupied slots, 0..16 (R26, C1). -/
  sp : Fin 17
  /-- `STACK[0]` .. `STACK[15]` (R26). -/
  stack : Vector Word 16
  /-- `MEM[0x000..0xFFF]` (R27). -/
  mem : Memory
  /-- KEYS: bit i is key i (R28). -/
  keys : Word
  /-- WAITK: register index + 1, or 0 for "not waiting" (R29). -/
  waitk : Fin 17
  /-- `SCREEN[y][x]` (R30). -/
  screen : Screen
  /-- The state of the RNG oracle (R14, R31): how many draws have been taken, by this construction and the
  ones before it. The model's own field, log entry 3. -/
  rngDraws : Nat
  /-- The diagnostic cycle counter CYCLES (R32). -/
  cycles : Nat
  /-- STATUS (R33). -/
  status : Status
deriving DecidableEq, Repr

/-- The reasons a step stops the model: none. Every error condition the spec names is a fault whose entry is a next
state with STATUS = FAULTED(c) (R127, R221), and a tick on a FAULTED machine is a step that changes nothing (R128), so
no rule of the spec leaves a step without a next state. Log entry 1. -/
inductive Fault where
deriving DecidableEq, Repr

/-- What the model gives no meaning. -/
inductive Refusal where
  /-- An instruction without a meaning, by its mnemonic; raised by no arm of exec (every form has a meaning). Safe. -/
  | notModelled (mnemonic : String)
  /-- KeyEvent with a key above 15, which the host must not send (R231, D21; spec/93_implementation_defined.md 19);
  raised by `hostKeyEvent` only, never by a step. Safe. -/
  | keyEventOutOfRange
deriving DecidableEq, Repr

/-- The state right after construction (R37, R250, R251): everything zero but PC = 0x200, the font in memory (which
is what unlisted addresses read as) and STATUS = RUNNING. The 0 of `rngDraws` is a DESIGN CHOICE, log entry 3. -/
def State.reset : State where
  v := Vector.replicate 16 0
  i := 0
  dt := 0
  st := 0
  pc := 0x200
  sp := 0
  stack := Vector.replicate 16 0
  mem := []
  keys := 0
  waitk := 0
  screen := Vector.replicate 32 (Vector.replicate 64 false)
  rngDraws := 0
  cycles := 0
  status := .running

end Sys2Proof.Machine
end

