-- ==== Sys2Proof/Machine/Ops.lean ====
section
/-! DEFINITION. The named operations over memory, registers, stack, screen and STATUS that the meanings share, taking a
fault among them. -/

namespace Sys2Proof.Machine

/-! ## Memory (spec/20_memory.md) -/

/-- The number of bytes of the one address space, 0x000..0xFFF (R50). -/
def memSize : Nat := 4096

/-- The content of a byte after construction (R37): FONT in 0x000..0x04F, 0 elsewhere. It is what an address that
memory does not list reads as. -/
def initialByte (a : Nat) : Byte := (fontRom[a]?).getD 0

/-- The canonical form: addresses strictly rising from `lo`, all inside the space, no byte equal to its reset content. -/
def Memory.wfFrom : Nat → Memory → Bool
  | _, [] => true
  | lo, (a, b) :: rest => decide (lo ≤ a) && decide (a < memSize) && decide (b ≠ initialByte a) && Memory.wfFrom (a + 1) rest

/-- Memory is in canonical form. -/
def Memory.wf (m : Memory) : Bool := Memory.wfFrom 0 m

/-- MEM[a] (R11). -/
def Memory.read : Memory → Nat → Byte
  | [], a => initialByte a
  | (k, c) :: rest, a => if a = k then c else Memory.read rest a

/-- Memory without an entry for `a`. -/
def Memory.erase (m : Memory) (a : Nat) : Memory := m.filter fun c => c.1 ≠ a

/-- Memory with an entry put at its place in the order; `m` has none for `a`. -/
def Memory.place : Memory → Nat → Byte → Memory
  | [], a, b => [(a, b)]
  | (k, c) :: rest, a, b => if a < k then (a, b) :: (k, c) :: rest else (k, c) :: Memory.place rest a b

/-- MEM[a] <- b (R11); writing the reset content removes the entry, so the canonical form is kept. -/
def Memory.write (m : Memory) (a : Nat) (b : Byte) : Memory :=
  if b = initialByte a then m.erase a else (m.erase a).place a b

/-- The bytes MEM[a], MEM[a+1], … of a list, written in rising order (R59). -/
def Memory.writeBytes : Memory → Nat → List Byte → Memory
  | m, _, [] => m
  | m, a, b :: rest => Memory.writeBytes (m.write a b) (a + 1) rest

/-- The n bytes MEM[a] .. MEM[a+n-1]. -/
def Memory.readBytes (m : Memory) (a n : Nat) : List Byte := (List.range n).map fun k => m.read (a + k)

/-- The bounds check of R12 and R55: the last of the n bytes from `a` is at 0xFFF or below. -/
def inBounds (a n : Nat) : Bool := decide (a + n ≤ memSize)

/-- Bytes concatenated with the first in the most significant position (R12). -/
def bigEndian (bytes : List Byte) : Nat := bytes.foldl (fun acc b => acc * 256 + b.toNat) 0

/-- The n bytes of `v` with the most significant first (R12). -/
def bigEndianBytes : Nat → Nat → List Byte
  | 0, _ => []
  | n + 1, v => bigEndianBytes n (v / 256) ++ [BitVec.ofNat 8 v]

/-- `MemRead(addr, n)` (R12): the whole range is checked first. -/
def memRead (s : State) (a n : Nat) : Except FaultCause Nat :=
  if inBounds a n then .ok (bigEndian (s.mem.readBytes a n)) else .error .memOutOfBounds

/-! ## Registers, I, timers, PC (spec/10_state.md) -/

/-- `V[x]` (R20). -/
def State.getV (s : State) (x : Reg) : Byte := s.v[x]

/-- `V[x] <- b` (R20): no register is hard-wired. -/
def State.setV (s : State) (x : Reg) (b : Byte) : State := { s with v := s.v.set x.val b x.isLt }

/-- `I <- w` (R23). -/
def State.setI (s : State) (w : Word) : State := { s with i := w }

/-- `DT <- b` (R24). -/
def State.setDT (s : State) (b : Byte) : State := { s with dt := b }

/-- `ST <- b` (R24). -/
def State.setST (s : State) (b : Byte) : State := { s with st := b }

/-- `PC <- w` (R25); a target is not checked when it is written (R152). -/
def State.setPC (s : State) (w : Word) : State := { s with pc := w }

/-- MEM replaced. -/
def State.setMem (s : State) (m : Memory) : State := { s with mem := m }

/-- `WAITK <- k` (R29). -/
def State.setWaitk (s : State) (k : Fin 17) : State := { s with waitk := k }

/-- `KEYS <- w` (R28): only the host writes it. -/
def State.setKeys (s : State) (w : Word) : State := { s with keys := w }

/-- SCREEN replaced (R30). -/
def State.setScreen (s : State) (scr : Screen) : State := { s with screen := scr }

/-- `STATUS <- t` (R33). -/
def State.setStatus (s : State) (t : Status) : State := { s with status := t }

/-- `CYCLES <- n` (R32). -/
def State.setCycles (s : State) (n : Nat) : State := { s with cycles := n }

/-- `STACK` and SP replaced (R26). -/
def State.setStack (s : State) (stack : Vector Word 16) (sp : Fin 17) : State := { s with stack := stack, sp := sp }

/-- The count of draws taken (R14, R31). -/
def State.setDraws (s : State) (n : Nat) : State := { s with rngDraws := n }

/-- One byte of memory. -/
def State.readByte (s : State) (a : Nat) : Byte := s.mem.read a

/-- `Draw_RNG()` (R14): the next byte of the oracle, and the state after the draw. FREE VALUE, log entry 3. -/
def drawRng (s : State) : Byte × State := (Config.rngDraw s.rngDraws, s.setDraws (s.rngDraws + 1))

/-! ## The call stack (R26) -/

/-- `STACK[SP] <- w; SP <- SP + 1`, with STACK_OVERFLOW when all 16 slots are in use (R145). -/
def push (s : State) (w : Word) : Except FaultCause State :=
  if h : s.sp.val < 16 then
    .ok (s.setStack (s.stack.set s.sp.val w h) ⟨s.sp.val + 1, Nat.succ_lt_succ h⟩)
  else .error .stackOverflow

/-- `SP <- SP - 1`, with the value `STACK[SP]` then read; STACK_UNDERFLOW when the stack is empty (R142). The slot is
not cleared (D35). -/
def pop (s : State) : Except FaultCause (Word × State) :=
  if h : 0 < s.sp.val then
    have hs : s.sp.val - 1 < 16 := by omega
    .ok (s.stack[s.sp.val - 1], s.setStack s.stack ⟨s.sp.val - 1, Nat.lt_succ_of_lt hs⟩)
  else .error .stackUnderflow

/-! ## The screen (R30) -/

/-- `SCREEN[y][x]`. -/
def Screen.pixel (scr : Screen) (y : Fin 32) (x : Fin 64) : Bool := scr[y][x]

/-- `SCREEN[y][x] <- b`. -/
def Screen.setPixel (scr : Screen) (y : Fin 32) (x : Fin 64) (b : Bool) : Screen :=
  scr.set y.val (scr[y].set x.val b x.isLt) y.isLt

/-- Every pixel 0 (R200). -/
def Screen.clear : Screen := Vector.replicate 32 (Vector.replicate 64 false)

/-! ## Storing and loading blocks of bytes (R54, R55) -/

/-- Single-byte writes to rising addresses from `a`, the whole range checked first: nothing is written when it leaves
the space (R55, R169). -/
def storeBytes (s : State) (a : Nat) (bytes : List Byte) : Except FaultCause State :=
  if inBounds a bytes.length then .ok (s.setMem (s.mem.writeBytes a bytes)) else .error .memOutOfBounds

/-- `MemWrite(addr, n, v)` (R12). -/
def memWrite (s : State) (a n v : Nat) : Except FaultCause State := storeBytes s a (bigEndianBytes n v)

/-- `V[r] <- MEM[a + r]` for r = 0..x (R170). -/
def State.loadRegs (s : State) (a : Nat) (x : Reg) : State :=
  { s with v := Vector.ofFn fun r : Fin 16 => if r.val ≤ x.val then s.readByte (a + r.val) else s.getV r }

/-! ## Faults (spec/60_exceptions.md) -/

/-- The cause codes of R220. -/
def FaultCause.code : FaultCause → Nat
  | .invalidInstruction => 1
  | .misalignedFetch => 2
  | .fetchOutOfBounds => 3
  | .memOutOfBounds => 4
  | .stackOverflow => 5
  | .stackUnderflow => 6
  | .sysNotImplemented => 7
  | .drawHeightZero => 8
  | .keyOutOfRange => 9
  | .unsupportedShape => 10

/-- The code of a run status: 0 when RUNNING (R220). -/
def Status.code : Status → Nat
  | .running => 0
  | .faulted c => c.code

/-- Fault entry (R13, R127, R221): `STATUS <- FAULTED(c)` and nothing else. No register saves the PC or a status, no
mode or mask changes and control goes nowhere. `s` is the state the fault leaves: inside a rule the state that rule
sees, with PC already advanced; the tick puts the state at its start there (`endTick`). There is no return from a
fault (R222): only construction (`State.reset`) makes the machine RUNNING again. -/
def takeFault (s : State) (c : FaultCause) : State := s.setStatus (.faulted c)

/-- `raise Fault(c)` inside a rule (R13): a next state, the fault taken. -/
def raiseFault (s : State) (c : FaultCause) : Host.Outcome State Fault Refusal := .next (takeFault s c)

/-- Ends a rule whose shared operation may have raised a fault. -/
def orFault (s : State) : Except FaultCause State → Host.Outcome State Fault Refusal
  | .ok t => .next t
  | .error c => raiseFault s c

/-! ## Skip (spec/41_control_flow.md R140) -/

/-- A skip when the condition holds: `PC <- PC + 2` in 16 bits. -/
def skipIf (s : State) (c : Bool) : State := if c then s.setPC (s.pc + 2) else s

end Sys2Proof.Machine
end

