-- ==== Sys2Proof/Machine/Operands.lean ====
section
/-! DEFINITION. The operand forms and addressing modes (spec/30_encoding.md R74, spec/42_loads.md R171), and the values
the loads and DRW form from them. A byte immediate is already an 8-bit value and a register operand is `State.getV`. -/

namespace Sys2Proof.Machine

/-- An address operand, zero-extended to 16 bits (R74). -/
def addrOperand (nnn : Addr) : Word := nnn.setWidth 16

/-- The target of JP V0, addr: `zext_16(nnn) + zext_16(V[0])` (R144). -/
def jumpV0Target (s : State) (nnn : Addr) : Word := addrOperand nnn + (s.getV 0).setWidth 16

/-- I-indirect with implicit offset: `I + r`, a natural number without wrap-around (R55, R171). -/
def indirectAddr (s : State) (r : Nat) : Nat := s.i.toNat + r

/-- Font address: `0x000 + 5 * (v & 0xF)` (R167, R171). -/
def fontAddr (v : Byte) : Word := BitVec.ofNat 16 (0x000 + 5 * (v &&& 0x0F).toNat)

/-- The BCD decomposition: hundreds, tens, ones (R168). -/
def bcdDigits (v : Byte) : List Byte :=
  [BitVec.ofNat 8 (v.toNat / 100), BitVec.ofNat 8 (v.toNat / 10 % 10), BitVec.ofNat 8 (v.toNat % 10)]

/-- The registers V0..Vx inclusive, x+1 of them (R169). -/
def regsUpTo (s : State) (x : Reg) : List Byte := s.v.toList.take (x.val + 1)

/-- Bit `7 - col` of a sprite row: the most significant bit is the leftmost pixel (R201, R203). Log entry 9. -/
def spriteBit (b : Byte) (col : Nat) : Bool := b.getLsbD (7 - col)

/-- The column a sprite column falls on: `(sx + col) mod 64`, wraparound (R202). -/
def screenX (sx col : Nat) : Fin 64 := Fin.ofNat 64 (sx + col)

/-- The row a sprite row falls on: `(sy + row) mod 32`, wraparound (R202). -/
def screenY (sy row : Nat) : Fin 32 := Fin.ofNat 32 (sy + row)

end Sys2Proof.Machine
end

