-- ==== Sys2Proof/Machine/Arithmetic.lean ====
section
/-! DEFINITION. Arithmetic, logic, shifts and RND (spec/43_arithmetic.md). Arithmetic wraps modulo 2^8 or 2^16 (R191).
The writes of a rule happen in its order, each reading the state the one before left (R131): that decides what happens
when X or Y is VF or X = Y. None of these raises a fault. -/

namespace Sys2Proof.Machine

/-- `ADD Vx, byte`: no flag (R180). -/
def execAddVxByte (x : Reg) (kk : Byte) (s : State) : Host.Outcome State Fault Refusal := .next (s.setV x (s.getV x + kk))

/-- `ADD Vx, Vy`: Vx, then the carry into VF (R181, D12). -/
def execAddVxVy (x y : Reg) (s : State) : Host.Outcome State Fault Refusal :=
  .next ((s.setV x (s.getV x + s.getV y)).setV VF (carryFlag (s.getV x) (s.getV y)))

/-- `ADD I, Vx`: 16-bit wrap, no flag (R182, D16). -/
def execAddIVx (x : Reg) (s : State) : Host.Outcome State Fault Refusal := .next (s.setI (s.i + (s.getV x).setWidth 16))

/-- `OR Vx, Vy` (R183). -/
def execOr (x y : Reg) (s : State) : Host.Outcome State Fault Refusal := .next (s.setV x (s.getV x ||| s.getV y))

/-- `AND Vx, Vy` (R184). -/
def execAnd (x y : Reg) (s : State) : Host.Outcome State Fault Refusal := .next (s.setV x (s.getV x &&& s.getV y))

/-- `XOR Vx, Vy` (R185). -/
def execXor (x y : Reg) (s : State) : Host.Outcome State Fault Refusal := .next (s.setV x (s.getV x ^^^ s.getV y))

/-- SUB after its flag is written: `V[x] <- V[x] - V[y]` (R186). -/
def subInto (s : State) (x y : Reg) : State := s.setV x (s.getV x - s.getV y)

/-- `SUB Vx, Vy`: VF first, then Vx (R186, D11). -/
def execSub (x y : Reg) (s : State) : Host.Outcome State Fault Refusal :=
  .next (subInto (s.setV VF (greaterFlag (s.getV x) (s.getV y))) x y)

/-- SUBN after its flag is written: `V[x] <- V[y] - V[x]` (R187). -/
def subnInto (s : State) (x y : Reg) : State := s.setV x (s.getV y - s.getV x)

/-- `SUBN Vx, Vy`: VF first, then Vx (R187, D11). -/
def execSubn (x y : Reg) (s : State) : Host.Outcome State Fault Refusal :=
  .next (subnInto (s.setV VF (greaterFlag (s.getV y) (s.getV x))) x y)

/-- `V[x] <- V[y]`: the last statement of the shifts (R188, R189). -/
def copyReg (s : State) (x y : Reg) : State := s.setV x (s.getV y)

/-- SHR after its flag is written: `V[y] <- V[y] >> 1`, then `V[x] <- V[y]` (R188). -/
def shrInto (s : State) (x y : Reg) : State := copyReg (s.setV y (s.getV y >>> 1)) x y

/-- `SHR Vx, Vy`: the source is Vy, which is written back (R188, R3, D14). -/
def execShr (x y : Reg) (s : State) : Host.Outcome State Fault Refusal :=
  .next (shrInto (s.setV VF (shrFlag (s.getV y))) x y)

/-- SHL after its flag is written: `V[y] <- V[y] << 1` in 8 bits, then `V[x] <- V[y]` (R189). -/
def shlInto (s : State) (x y : Reg) : State := copyReg (s.setV y (s.getV y <<< 1)) x y

/-- SHL for either value of SHL_VF_BIT (R189). -/
def shlBy (sel : Config.ShlVfBit) (x y : Reg) (s : State) : State :=
  shlInto (s.setV VF (shlVfOf sel (s.getV y))) x y

/-- `SHL Vx, Vy` (R189, C2, D13). -/
def execShl (x y : Reg) (s : State) : Host.Outcome State Fault Refusal := .next (shlBy shlVfBit x y s)

/-- `RND Vx, byte`: exactly one draw, also when kk = 0 (R190, D19). -/
def execRnd (x : Reg) (kk : Byte) (s : State) : Host.Outcome State Fault Refusal :=
  .next ((drawRng s).2.setV x (kk &&& (drawRng s).1))

end Sys2Proof.Machine
end

