-- ==== Sys2Proof/Machine/ControlFlow.lean ====
section
/-! DEFINITION. Control flow (spec/41_control_flow.md): SYS, RET, JP, CALL, SE, SNE, SKP, SKNP. PC has already been
advanced past the instruction (R123). -/

namespace Sys2Proof.Machine

/-- `SYS addr`: always SYS_NOT_IMPLEMENTED, whatever the address (R141, C9, D8). -/
def execSys (_nnn : Addr) (s : State) : Host.Outcome State Fault Refusal := raiseFault s .sysNotImplemented

/-- `RET`: the top slot becomes PC; STACK_UNDERFLOW on an empty stack (R142). -/
def execRet (s : State) : Host.Outcome State Fault Refusal :=
  match pop s with
  | .ok (w, t) => .next (t.setPC w)
  | .error c => raiseFault s c

/-- `JP addr` (R143). -/
def execJp (nnn : Addr) (s : State) : Host.Outcome State Fault Refusal := .next (s.setPC (addrOperand nnn))

/-- `JP V0, addr`: the sum is at most 0x10FE (R144). -/
def execJpV0Addr (nnn : Addr) (s : State) : Host.Outcome State Fault Refusal := .next (s.setPC (jumpV0Target s nnn))

/-- `CALL addr`: PC, the address after the CALL, is pushed; STACK_OVERFLOW when 16 slots are in use (R145). -/
def execCall (nnn : Addr) (s : State) : Host.Outcome State Fault Refusal :=
  match push s s.pc with
  | .ok t => .next (t.setPC (addrOperand nnn))
  | .error c => raiseFault s c

/-- `SE Vx, byte` (R146). -/
def execSeVxByte (x : Reg) (kk : Byte) (s : State) : Host.Outcome State Fault Refusal :=
  .next (skipIf s (s.getV x == kk))

/-- `SNE Vx, byte` (R147). -/
def execSneVxByte (x : Reg) (kk : Byte) (s : State) : Host.Outcome State Fault Refusal :=
  .next (skipIf s (s.getV x != kk))

/-- `SE Vx, Vy` (R148). -/
def execSeVxVy (x y : Reg) (s : State) : Host.Outcome State Fault Refusal :=
  .next (skipIf s (s.getV x == s.getV y))

/-- `SNE Vx, Vy` (R149). -/
def execSneVxVy (x y : Reg) (s : State) : Host.Outcome State Fault Refusal :=
  .next (skipIf s (s.getV x != s.getV y))

/-- `KEYS[V[x]]`, with KEY_OUT_OF_RANGE when V[x] is above 15 (R150, R151). -/
def keyDown (s : State) (x : Reg) : Except FaultCause Bool :=
  if (s.getV x).toNat > 15 then .error .keyOutOfRange else .ok (s.keys.getLsbD (s.getV x).toNat)

/-- `SKP Vx` (R150). -/
def execSkp (x : Reg) (s : State) : Host.Outcome State Fault Refusal :=
  match keyDown s x with
  | .ok down => .next (skipIf s down)
  | .error c => raiseFault s c

/-- `SKNP Vx` (R151). -/
def execSknp (x : Reg) (s : State) : Host.Outcome State Fault Refusal :=
  match keyDown s x with
  | .ok down => .next (skipIf s (!down))
  | .error c => raiseFault s c

end Sys2Proof.Machine
end

