-- ==== Sys2Proof/Machine/Display.lean ====
section
/-! DEFINITION. The display (spec/44_display.md): CLS and DRW. The sprite loop stands as R201 writes it. -/

namespace Sys2Proof.Machine

/-- `CLS`: every pixel 0 (R200). -/
def execCls (s : State) : Host.Outcome State Fault Refusal := .next (s.setScreen Screen.clear)

/-- One pixel of the loop of R201: the new pixel is old XOR bit, and the collision collects old AND bit (R204). -/
def drawPixel (acc : Screen × Bool) (y : Fin 32) (x : Fin 64) (bit : Bool) : Screen × Bool :=
  (acc.1.setPixel y x (acc.1.pixel y x ^^ bit), acc.2 || (acc.1.pixel y x && bit))

/-- The inner loop of R201: the 8 columns of the row byte `b`. -/
def drawRow (sx sy row : Nat) (b : Byte) (acc : Screen × Bool) : Screen × Bool :=
  (List.range 8).foldl (fun acc col => drawPixel acc (screenY sy row) (screenX sx col) (spriteBit b col)) acc

/-- The outer loop of R201: n rows, row r of the sprite being the byte `rows r`; the screen and the collision. -/
def drawSprite (scr : Screen) (sx sy n : Nat) (rows : Nat → Byte) : Screen × Bool :=
  (List.range n).foldl (fun acc row => drawRow sx sy row (rows row) acc) (scr, false)

/-- What DRW draws: the sprite of `n` bytes from I at (V[x], V[y]) (R201). -/
def drawResult (s : State) (x y : Reg) (n : Nat) : Screen × Bool :=
  drawSprite s.screen (s.getV x).toNat (s.getV y).toNat n fun row => s.readByte (indirectAddr s row)

/-- `DRW Vx, Vy, nibble`: DRAW_HEIGHT_ZERO, then MEM_OUT_OF_BOUNDS, then the sprite, then VF (R201, R223). The
coordinates are read before VF is written. -/
def execDrw (x y : Reg) (n : Nibble) (s : State) : Host.Outcome State Fault Refusal :=
  if n.toNat = 0 then raiseFault s .drawHeightZero
  else if inBounds (indirectAddr s 0) n.toNat then
    .next ((s.setScreen (drawResult s x y n.toNat).1).setV VF (collisionFlag (drawResult s x y n.toNat).2))
  else raiseFault s .memOutOfBounds

end Sys2Proof.Machine
end

