-- ==== Sys2Proof/Machine/Loads.lean ====
section
/-! DEFINITION. The LD family (spec/42_loads.md). No form changes PC, and every indirect form leaves I unchanged
(R171). -/

namespace Sys2Proof.Machine

/-- `LD Vx, byte` (R160). -/
def execLdVxByte (x : Reg) (kk : Byte) (s : State) : Host.Outcome State Fault Refusal := .next (s.setV x kk)

/-- `LD Vx, Vy` (R161). -/
def execLdVxVy (x y : Reg) (s : State) : Host.Outcome State Fault Refusal := .next (s.setV x (s.getV y))

/-- `LD I, addr` (R162). -/
def execLdIAddr (nnn : Addr) (s : State) : Host.Outcome State Fault Refusal := .next (s.setI (addrOperand nnn))

/-- `LD Vx, DT`: DT before this tick's decrement (R163). -/
def execLdVxDT (x : Reg) (s : State) : Host.Outcome State Fault Refusal := .next (s.setV x s.dt)

/-- `LD DT, Vx` (R165). -/
def execLdDTVx (x : Reg) (s : State) : Host.Outcome State Fault Refusal := .next (s.setDT (s.getV x))

/-- `LD ST, Vx` (R166). -/
def execLdSTVx (x : Reg) (s : State) : Host.Outcome State Fault Refusal := .next (s.setST (s.getV x))

/-- `LD Vx, K`: `WAITK <- x + 1`; the host writes Vx later (R164, R130). -/
def execLdVxK (x : Reg) (s : State) : Host.Outcome State Fault Refusal := .next (s.setWaitk x.succ)

/-- `LD F, Vx` (R167). -/
def execLdFVx (x : Reg) (s : State) : Host.Outcome State Fault Refusal := .next (s.setI (fontAddr (s.getV x)))

/-- `LD B, Vx`: the three decimal digits to I, I+1, I+2 (R168). -/
def execLdBVx (x : Reg) (s : State) : Host.Outcome State Fault Refusal :=
  orFault s (storeBytes s (indirectAddr s 0) (bcdDigits (s.getV x)))

/-- `LD [I], Vx`: V0..Vx to I .. I+x (R169). -/
def execLdATIVx (x : Reg) (s : State) : Host.Outcome State Fault Refusal :=
  orFault s (storeBytes s (indirectAddr s 0) (regsUpTo s x))

/-- `LD Vx, [I]`: V0..Vx from I .. I+x, the whole range checked first (R170, R55). -/
def execLdVxATI (x : Reg) (s : State) : Host.Outcome State Fault Refusal :=
  if inBounds (indirectAddr s 0) (x.val + 1) then .next (s.loadRegs (indirectAddr s 0) x) else raiseFault s .memOutOfBounds

end Sys2Proof.Machine
end

