-- ==== Sys2Proof/Syntax.lean ====
section
/-! DEFINITION. The instruction set: one constructor per row of spec/opcode_table.json, in the order of the opcode map
(spec/30_encoding.md R100). It is the sum type that R132 allows: a shape outside the 35 forms cannot be written down.
The source's (type, args) model of an instruction (R75 to R78) is in Sys2Proof/Decode.lean. -/

namespace Sys2Proof

/-- The 35 instruction forms of R100. Operands are the fields of R74, with no bits beyond their field. -/
inductive Instr where
  /-- `CLS` (00E0), R200. -/
  | cls
  /-- `RET` (00EE), R142. -/
  | ret
  /-- `SYS addr` (0nnn), R141. -/
  | sys (nnn : Addr)
  /-- `JP addr` (1nnn), R143. -/
  | jp (nnn : Addr)
  /-- `CALL addr` (2nnn), R145. -/
  | call (nnn : Addr)
  /-- `SE Vx, byte` (3xkk), R146. -/
  | seVxByte (x : Reg) (kk : Byte)
  /-- `SNE Vx, byte` (4xkk), R147. -/
  | sneVxByte (x : Reg) (kk : Byte)
  /-- `SE Vx, Vy` (5xy-), R148. -/
  | seVxVy (x y : Reg)
  /-- `LD Vx, byte` (6xkk), R160. -/
  | ldVxByte (x : Reg) (kk : Byte)
  /-- `ADD Vx, byte` (7xkk), R180. -/
  | addVxByte (x : Reg) (kk : Byte)
  /-- `LD Vx, Vy` (8xy0), R161. -/
  | ldVxVy (x y : Reg)
  /-- `OR Vx, Vy` (8xy1), R183. -/
  | or (x y : Reg)
  /-- `AND Vx, Vy` (8xy2), R184. -/
  | and (x y : Reg)
  /-- `XOR Vx, Vy` (8xy3), R185. -/
  | xor (x y : Reg)
  /-- `ADD Vx, Vy` (8xy4), R181. -/
  | addVxVy (x y : Reg)
  /-- `SUB Vx, Vy` (8xy5), R186. -/
  | sub (x y : Reg)
  /-- `SHR Vx, Vy` (8xy6), R188. -/
  | shr (x y : Reg)
  /-- `SUBN Vx, Vy` (8xy7), R187. -/
  | subn (x y : Reg)
  /-- `SHL Vx, Vy` (8xyE), R189. -/
  | shl (x y : Reg)
  /-- `SNE Vx, Vy` (9xy-), R149. -/
  | sneVxVy (x y : Reg)
  /-- `LD I, addr` (Annn), R162. -/
  | ldIAddr (nnn : Addr)
  /-- `JP V0, addr` (Bnnn), R144: the register is always V0 and comes from no field (R84). -/
  | jpV0Addr (nnn : Addr)
  /-- `RND Vx, byte` (Cxkk), R190. -/
  | rnd (x : Reg) (kk : Byte)
  /-- `DRW Vx, Vy, nibble` (Dxyn), R201. -/
  | drw (x y : Reg) (n : Nibble)
  /-- `SKP Vx` (Ex9E), R150. -/
  | skp (x : Reg)
  /-- `SKNP Vx` (ExA1), R151. -/
  | sknp (x : Reg)
  /-- `LD Vx, DT` (Fx07), R163. -/
  | ldVxDT (x : Reg)
  /-- `LD Vx, K` (Fx0A), R164. -/
  | ldVxK (x : Reg)
  /-- `LD DT, Vx` (Fx15), R165. -/
  | ldDTVx (x : Reg)
  /-- `LD ST, Vx` (Fx18), R166. -/
  | ldSTVx (x : Reg)
  /-- `ADD I, Vx` (Fx1E), R182. -/
  | addIVx (x : Reg)
  /-- `LD F, Vx` (Fx29), R167. -/
  | ldFVx (x : Reg)
  /-- `LD B, Vx` (Fx33), R168. -/
  | ldBVx (x : Reg)
  /-- `LD [I], Vx` (Fx55), R169. -/
  | ldATIVx (x : Reg)
  /-- `LD Vx, [I]` (Fx65), R170. -/
  | ldVxATI (x : Reg)
deriving DecidableEq, Repr

end Sys2Proof
end

