-- ==== Sys2Proof/WellFormed.lean ====
section
/-! DEFINITION. Which terms of Instr are instructions that some word encodes (spec/30_encoding.md R81, R89, R103).
Register indexes and immediates are bounded by their types; the one relation left to check is that SYS has neither of
the two addresses whose words are CLS and RET. -/

namespace Sys2Proof

/-- The two addresses SYS cannot have: the words 0x00E0 and 0x00EE decode as CLS and RET (R81, R103). -/
def sysAddrTaken (nnn : Addr) : Bool := nnn == 0x0E0#12 || nnn == 0x0EE#12

/-- A form that some word decodes to: every form but SYS 0x0E0 and SYS 0x0EE (R103). -/
def Instr.wellFormed : Instr → Bool
  | .sys nnn => !sysAddrTaken nnn
  | .cls | .ret | .jp _ | .call _ | .seVxByte _ _ | .sneVxByte _ _ | .seVxVy _ _ | .ldVxByte _ _ | .addVxByte _ _
  | .ldVxVy _ _ | .or _ _ | .and _ _ | .xor _ _ | .addVxVy _ _ | .sub _ _ | .shr _ _ | .subn _ _ | .shl _ _
  | .sneVxVy _ _ | .ldIAddr _ | .jpV0Addr _ | .rnd _ _ | .drw _ _ _ | .skp _ | .sknp _ | .ldVxDT _ | .ldVxK _
  | .ldDTVx _ | .ldSTVx _ | .addIVx _ | .ldFVx _ | .ldBVx _ | .ldATIVx _ | .ldVxATI _ => true

end Sys2Proof
end

