-- ==== Sys2Proof/Decode.lean ====
section
/-! DEFINITION. The decoder and the encoder (spec/30_encoding.md). First the bit-field codec (R71, R72) and the decoder
(R79 to R90); then the encoder, written from the formats of R73 and the encodings of R102; then the opcode map (R100);
last the source's (type, args) model of an instruction (R75 to R78) with its decoder (R80) and its encoder (R101 to
R103), which says which error an instruction that has no word gets. -/

namespace Sys2Proof

/-! ## The bit-field codec: three views of a word (R71, R72) -/

/-- View (a): `GROUP` = w[15:12]. -/
def fieldGroup (w : Word) : Nibble := w.extractLsb' 12 4

/-- View (a): `ADDR` = w[11:0]. -/
def fieldAddr (w : Word) : Addr := w.extractLsb' 0 12

/-- View (b): `MSN` = w[15:12], the same bits as GROUP. -/
def fieldMSN (w : Word) : Nibble := w.extractLsb' 12 4

/-- View (b): `X` = w[11:8], a register index (R74). -/
def fieldX (w : Word) : Reg := (w.extractLsb' 8 4).toFin

/-- View (b): `Y` = w[7:4], a register index (R74). -/
def fieldY (w : Word) : Reg := (w.extractLsb' 4 4).toFin

/-- View (b): `LSN` = w[3:0]. -/
def fieldLSN (w : Word) : Nibble := w.extractLsb' 0 4

/-- View (c): `MSB` = w[15:8]. -/
def fieldMSB (w : Word) : Byte := w.extractLsb' 8 8

/-- View (c): `LSB` = w[7:0]. -/
def fieldLSB (w : Word) : Byte := w.extractLsb' 0 8

/-! ## The decoder (R79 to R90) -/

/-- Why bytes are not one of the 35 forms. -/
inductive DecodeError where
  /-- The word is INVALID; the raw word is kept (R87). -/
  | invalid (raw : Word)
  /-- Fewer than the two bytes of an instruction (R70). -/
  | truncated
deriving DecidableEq, Repr

/-- Group 0x0, dispatched on the full word (R81). -/
def decodeGroup0 (w : Word) : Instr :=
  if w = 0x00E0#16 then .cls else if w = 0x00EE#16 then .ret else .sys (fieldAddr w)

/-- Group 0x8, dispatched on LSN (R83); every other LSN is INVALID (R87). -/
def decodeGroup8 (w : Word) : Except DecodeError Instr :=
  let x := fieldX w
  let y := fieldY w
  match fieldLSN w with
  | 0x0#4 => .ok (.ldVxVy x y)
  | 0x1#4 => .ok (.or x y)
  | 0x2#4 => .ok (.and x y)
  | 0x3#4 => .ok (.xor x y)
  | 0x4#4 => .ok (.addVxVy x y)
  | 0x5#4 => .ok (.sub x y)
  | 0x6#4 => .ok (.shr x y)
  | 0x7#4 => .ok (.subn x y)
  | 0xE#4 => .ok (.shl x y)
  | _ => .error (.invalid w)

/-- Group 0xE, dispatched on LSB (R85). -/
def decodeGroupE (w : Word) : Except DecodeError Instr :=
  match fieldLSB w with
  | 0x9E#8 => .ok (.skp (fieldX w))
  | 0xA1#8 => .ok (.sknp (fieldX w))
  | _ => .error (.invalid w)

/-- Group 0xF, dispatched on LSB (R86). -/
def decodeGroupF (w : Word) : Except DecodeError Instr :=
  let x := fieldX w
  match fieldLSB w with
  | 0x07#8 => .ok (.ldVxDT x)
  | 0x0A#8 => .ok (.ldVxK x)
  | 0x15#8 => .ok (.ldDTVx x)
  | 0x18#8 => .ok (.ldSTVx x)
  | 0x1E#8 => .ok (.addIVx x)
  | 0x29#8 => .ok (.ldFVx x)
  | 0x33#8 => .ok (.ldBVx x)
  | 0x55#8 => .ok (.ldATIVx x)
  | 0x65#8 => .ok (.ldVxATI x)
  | _ => .error (.invalid w)

/-- `Decode(w)` (R79, R80): total on every word; a word that is none of the 35 forms is rejected by name with the raw
word kept (R87). Groups 5 and 9 do not look at the low nibble (R82); group B takes its register from no field
(R84). The last arm is group 0xF, the one value left. -/
def decode (w : Word) : Except DecodeError Instr :=
  match fieldGroup w with
  | 0x0#4 => .ok (decodeGroup0 w)
  | 0x1#4 => .ok (.jp (fieldAddr w))
  | 0x2#4 => .ok (.call (fieldAddr w))
  | 0x3#4 => .ok (.seVxByte (fieldX w) (fieldLSB w))
  | 0x4#4 => .ok (.sneVxByte (fieldX w) (fieldLSB w))
  | 0x5#4 => .ok (.seVxVy (fieldX w) (fieldY w))
  | 0x6#4 => .ok (.ldVxByte (fieldX w) (fieldLSB w))
  | 0x7#4 => .ok (.addVxByte (fieldX w) (fieldLSB w))
  | 0x8#4 => decodeGroup8 w
  | 0x9#4 => .ok (.sneVxVy (fieldX w) (fieldY w))
  | 0xA#4 => .ok (.ldIAddr (fieldAddr w))
  | 0xB#4 => .ok (.jpV0Addr (fieldAddr w))
  | 0xC#4 => .ok (.rnd (fieldX w) (fieldLSB w))
  | 0xD#4 => .ok (.drw (fieldX w) (fieldY w) (fieldLSN w))
  | 0xE#4 => decodeGroupE w
  | _ => decodeGroupF w

/-- The word of two bytes in memory order, most significant byte first (R53, R105). -/
def wordOfBytes (hi lo : Byte) : Word := hi ++ lo

/-- The two bytes of a word in the order they are emitted and fetched: bits 15..8, then bits 7..0 (R105). -/
def bytesOfWord (w : Word) : List Byte := [fieldMSB w, fieldLSB w]

/-- The decoder on a stream of bytes: the instruction of the first two, and the bytes after them (R70: every
instruction is two bytes long). -/
def decodeBytes : List Byte → Except DecodeError (Instr × List Byte)
  | hi :: lo :: rest =>
    match decode (wordOfBytes hi lo) with
    | .ok i => .ok (i, rest)
    | .error e => .error e
  | [_] | [] => .error .truncated

/-- The instruction the decoder reads from an instruction whose bits are `w`, numbered as spec/opcode_table.json
numbers them: one 16-bit word, laid out big-endian as the hardware stores it (R53), `nbits` bits of it given and the
bits above them 0. -/
def decodeTableWord (nbits w : Nat) : Option Instr :=
  match decodeBytes (bytesOfWord (BitVec.ofNat 16 (w % 2 ^ nbits))) with
  | .ok (i, _) => some i
  | .error _ => none

/-! ## The encoder (R101, R102), by the formats of R73 -/

/-- Format F_ADDR: `gggg aaaa aaaa aaaa`. -/
def formatAddr (g : Nibble) (nnn : Addr) : Word := g ++ nnn

/-- Formats F_XKK and F_XSS: `gggg xxxx kkkk kkkk` and `gggg xxxx ssss ssss`. -/
def formatXByte (g : Nibble) (x : Reg) (kk : Byte) : Word := g ++ (BitVec.ofFin x ++ kk : BitVec 12)

/-- Formats F_XY, F_XYS and F_XYN: `gggg xxxx yyyy nnnn`. -/
def formatXYNibble (g : Nibble) (x y : Reg) (n : Nibble) : Word :=
  g ++ (BitVec.ofFin x ++ (BitVec.ofFin y ++ n : BitVec 8) : BitVec 12)

/-- `Encode` on the 35 forms (R102): the word of a well-formed instruction. Groups 5 and 9 get the low nibble 0 (R82).
On the two terms that are not well formed it gives the word of CLS or RET; `encodeInstruction` refuses those (R103). -/
def encode : Instr → Word
  | .cls => 0x00E0
  | .ret => 0x00EE
  | .sys nnn => formatAddr 0x0 nnn
  | .jp nnn => formatAddr 0x1 nnn
  | .call nnn => formatAddr 0x2 nnn
  | .seVxByte x kk => formatXByte 0x3 x kk
  | .sneVxByte x kk => formatXByte 0x4 x kk
  | .seVxVy x y => formatXYNibble 0x5 x y 0x0
  | .ldVxByte x kk => formatXByte 0x6 x kk
  | .addVxByte x kk => formatXByte 0x7 x kk
  | .ldVxVy x y => formatXYNibble 0x8 x y 0x0
  | .or x y => formatXYNibble 0x8 x y 0x1
  | .and x y => formatXYNibble 0x8 x y 0x2
  | .xor x y => formatXYNibble 0x8 x y 0x3
  | .addVxVy x y => formatXYNibble 0x8 x y 0x4
  | .sub x y => formatXYNibble 0x8 x y 0x5
  | .shr x y => formatXYNibble 0x8 x y 0x6
  | .subn x y => formatXYNibble 0x8 x y 0x7
  | .shl x y => formatXYNibble 0x8 x y 0xE
  | .sneVxVy x y => formatXYNibble 0x9 x y 0x0
  | .ldIAddr nnn => formatAddr 0xA nnn
  | .jpV0Addr nnn => formatAddr 0xB nnn
  | .rnd x kk => formatXByte 0xC x kk
  | .drw x y n => formatXYNibble 0xD x y n
  | .skp x => formatXByte 0xE x 0x9E
  | .sknp x => formatXByte 0xE x 0xA1
  | .ldVxDT x => formatXByte 0xF x 0x07
  | .ldVxK x => formatXByte 0xF x 0x0A
  | .ldDTVx x => formatXByte 0xF x 0x15
  | .ldSTVx x => formatXByte 0xF x 0x18
  | .addIVx x => formatXByte 0xF x 0x1E
  | .ldFVx x => formatXByte 0xF x 0x29
  | .ldBVx x => formatXByte 0xF x 0x33
  | .ldATIVx x => formatXByte 0xF x 0x55
  | .ldVxATI x => formatXByte 0xF x 0x65

/-- The bytes an encoded instruction is emitted as (R105). -/
def encodeBytes (i : Instr) : List Byte := bytesOfWord (encode i)

/-! ## The opcode map (R100) -/

/-- The match and the mask of a form's row: a word `w` selects the row when `w &&& mask = match` (R100). -/
def tableRow : Instr → Word × Word
  | .cls => (0x00E0, 0xFFFF)
  | .ret => (0x00EE, 0xFFFF)
  | .sys _ => (0x0000, 0xF000)
  | .jp _ => (0x1000, 0xF000)
  | .call _ => (0x2000, 0xF000)
  | .seVxByte _ _ => (0x3000, 0xF000)
  | .sneVxByte _ _ => (0x4000, 0xF000)
  | .seVxVy _ _ => (0x5000, 0xF000)
  | .ldVxByte _ _ => (0x6000, 0xF000)
  | .addVxByte _ _ => (0x7000, 0xF000)
  | .ldVxVy _ _ => (0x8000, 0xF00F)
  | .or _ _ => (0x8001, 0xF00F)
  | .and _ _ => (0x8002, 0xF00F)
  | .xor _ _ => (0x8003, 0xF00F)
  | .addVxVy _ _ => (0x8004, 0xF00F)
  | .sub _ _ => (0x8005, 0xF00F)
  | .shr _ _ => (0x8006, 0xF00F)
  | .subn _ _ => (0x8007, 0xF00F)
  | .shl _ _ => (0x800E, 0xF00F)
  | .sneVxVy _ _ => (0x9000, 0xF000)
  | .ldIAddr _ => (0xA000, 0xF000)
  | .jpV0Addr _ => (0xB000, 0xF000)
  | .rnd _ _ => (0xC000, 0xF000)
  | .drw _ _ _ => (0xD000, 0xF000)
  | .skp _ => (0xE09E, 0xF0FF)
  | .sknp _ => (0xE0A1, 0xF0FF)
  | .ldVxDT _ => (0xF007, 0xF0FF)
  | .ldVxK _ => (0xF00A, 0xF0FF)
  | .ldDTVx _ => (0xF015, 0xF0FF)
  | .ldSTVx _ => (0xF018, 0xF0FF)
  | .addIVx _ => (0xF01E, 0xF0FF)
  | .ldFVx _ => (0xF029, 0xF0FF)
  | .ldBVx _ => (0xF033, 0xF0FF)
  | .ldATIVx _ => (0xF055, 0xF0FF)
  | .ldVxATI _ => (0xF065, 0xF0FF)

/-- The word selects the row of this form (R100): SYS also needs that it is neither CLS's word nor RET's. -/
def selectsRow (w : Word) (i : Instr) : Bool :=
  w &&& (tableRow i).2 == (tableRow i).1 &&
    match i with
    | .sys _ => w != 0x00E0#16 && w != 0x00EE#16
    | .cls | .ret | .jp _ | .call _ | .seVxByte _ _ | .sneVxByte _ _ | .seVxVy _ _ | .ldVxByte _ _ | .addVxByte _ _
    | .ldVxVy _ _ | .or _ _ | .and _ _ | .xor _ _ | .addVxVy _ _ | .sub _ _ | .shr _ _ | .subn _ _ | .shl _ _
    | .sneVxVy _ _ | .ldIAddr _ | .jpV0Addr _ | .rnd _ _ | .drw _ _ _ | .skp _ | .sknp _ | .ldVxDT _ | .ldVxK _
    | .ldDTVx _ | .ldSTVx _ | .addIVx _ | .ldFVx _ | .ldBVx _ | .ldATIVx _ | .ldVxATI _ => true

/-! ## The source's model of an instruction: a type and a list of arguments (R75 to R78) -/

/-- The 21 types of R75. -/
inductive InstrType where
  | cls | ret | sys | jp | call | se | sne | ld | add | or | and | xor | sub | shr | subn | shl | rnd | drw | skp | sknp
  | invalid
deriving DecidableEq, Repr

/-- The nine argument tags of R76; `reg` is the tag V, `index` the tag I. -/
inductive ArgTag where
  | reg | index | dt | st | k | f | b | ati | constant
deriving DecidableEq, Repr

/-- An argument: a tag and a 16-bit value whose meaning depends on the tag (R76). -/
structure Argument where
  tag : ArgTag
  value : Word
deriving DecidableEq, Repr

/-- An instruction: its type and its arguments; equality is equality of both (R75). -/
structure Instruction where
  type : InstrType
  args : List Argument
deriving DecidableEq, Repr

/-- `V(r)` of R80. -/
def argV (r : Reg) : Argument := ⟨.reg, BitVec.ofNat 16 r.val⟩

/-- `CONST(v)` of R80, zero-extended (R74). -/
def argConst {n : Nat} (v : BitVec n) : Argument := ⟨.constant, v.setWidth 16⟩

/-- A tag that carries no information has the value 0 (R77). -/
def argTag (t : ArgTag) : Argument := ⟨t, 0⟩

/-- The (type, args) pair of a form: the column "decoded args" of R100. -/
def Instr.toInstruction : Instr → Instruction
  | .cls => ⟨.cls, []⟩
  | .ret => ⟨.ret, []⟩
  | .sys nnn => ⟨.sys, [argConst nnn]⟩
  | .jp nnn => ⟨.jp, [argConst nnn]⟩
  | .call nnn => ⟨.call, [argConst nnn]⟩
  | .seVxByte x kk => ⟨.se, [argV x, argConst kk]⟩
  | .sneVxByte x kk => ⟨.sne, [argV x, argConst kk]⟩
  | .seVxVy x y => ⟨.se, [argV x, argV y]⟩
  | .ldVxByte x kk => ⟨.ld, [argV x, argConst kk]⟩
  | .addVxByte x kk => ⟨.add, [argV x, argConst kk]⟩
  | .ldVxVy x y => ⟨.ld, [argV x, argV y]⟩
  | .or x y => ⟨.or, [argV x, argV y]⟩
  | .and x y => ⟨.and, [argV x, argV y]⟩
  | .xor x y => ⟨.xor, [argV x, argV y]⟩
  | .addVxVy x y => ⟨.add, [argV x, argV y]⟩
  | .sub x y => ⟨.sub, [argV x, argV y]⟩
  | .shr x y => ⟨.shr, [argV x, argV y]⟩
  | .subn x y => ⟨.subn, [argV x, argV y]⟩
  | .shl x y => ⟨.shl, [argV x, argV y]⟩
  | .sneVxVy x y => ⟨.sne, [argV x, argV y]⟩
  | .ldIAddr nnn => ⟨.ld, [argTag .index, argConst nnn]⟩
  | .jpV0Addr nnn => ⟨.jp, [argV 0, argConst nnn]⟩
  | .rnd x kk => ⟨.rnd, [argV x, argConst kk]⟩
  | .drw x y n => ⟨.drw, [argV x, argV y, argConst n]⟩
  | .skp x => ⟨.skp, [argV x]⟩
  | .sknp x => ⟨.sknp, [argV x]⟩
  | .ldVxDT x => ⟨.ld, [argV x, argTag .dt]⟩
  | .ldVxK x => ⟨.ld, [argV x, argTag .k]⟩
  | .ldDTVx x => ⟨.ld, [argTag .dt, argV x]⟩
  | .ldSTVx x => ⟨.ld, [argTag .st, argV x]⟩
  | .addIVx x => ⟨.add, [argTag .index, argV x]⟩
  | .ldFVx x => ⟨.ld, [argTag .f, argV x]⟩
  | .ldBVx x => ⟨.ld, [argTag .b, argV x]⟩
  | .ldATIVx x => ⟨.ld, [argTag .ati, argV x]⟩
  | .ldVxATI x => ⟨.ld, [argV x, argTag .ati]⟩

/-- `Decode(w)` as the source writes it (R80): every word gives exactly one (type, args) value; an unrecognised word
gives INVALID with the raw word as its one argument, tagged CONSTANT (R87). -/
def decodeInstruction (w : Word) : Instruction :=
  match decode w with
  | .ok i => i.toInstruction
  | .error _ => ⟨.invalid, [⟨.constant, w⟩]⟩

/-- The register a V argument names; used only after its range check (R103). -/
def regOfValue (v : Word) : Reg := Fin.ofNat 16 v.toNat

/-- The form a (type, tag list) pair names, its operands read from the values; `none` when the pair is not one of the
35 shapes of R100. Values are not checked here: R103 checks them after the shape. -/
def Instruction.form? : Instruction → Option Instr
  | ⟨.cls, []⟩ => some .cls
  | ⟨.ret, []⟩ => some .ret
  | ⟨.sys, [⟨.constant, a⟩]⟩ => some (.sys (a.setWidth 12))
  | ⟨.jp, [⟨.constant, a⟩]⟩ => some (.jp (a.setWidth 12))
  | ⟨.call, [⟨.constant, a⟩]⟩ => some (.call (a.setWidth 12))
  | ⟨.se, [⟨.reg, x⟩, ⟨.constant, k⟩]⟩ => some (.seVxByte (regOfValue x) (k.setWidth 8))
  | ⟨.sne, [⟨.reg, x⟩, ⟨.constant, k⟩]⟩ => some (.sneVxByte (regOfValue x) (k.setWidth 8))
  | ⟨.se, [⟨.reg, x⟩, ⟨.reg, y⟩]⟩ => some (.seVxVy (regOfValue x) (regOfValue y))
  | ⟨.ld, [⟨.reg, x⟩, ⟨.constant, k⟩]⟩ => some (.ldVxByte (regOfValue x) (k.setWidth 8))
  | ⟨.add, [⟨.reg, x⟩, ⟨.constant, k⟩]⟩ => some (.addVxByte (regOfValue x) (k.setWidth 8))
  | ⟨.ld, [⟨.reg, x⟩, ⟨.reg, y⟩]⟩ => some (.ldVxVy (regOfValue x) (regOfValue y))
  | ⟨.or, [⟨.reg, x⟩, ⟨.reg, y⟩]⟩ => some (.or (regOfValue x) (regOfValue y))
  | ⟨.and, [⟨.reg, x⟩, ⟨.reg, y⟩]⟩ => some (.and (regOfValue x) (regOfValue y))
  | ⟨.xor, [⟨.reg, x⟩, ⟨.reg, y⟩]⟩ => some (.xor (regOfValue x) (regOfValue y))
  | ⟨.add, [⟨.reg, x⟩, ⟨.reg, y⟩]⟩ => some (.addVxVy (regOfValue x) (regOfValue y))
  | ⟨.sub, [⟨.reg, x⟩, ⟨.reg, y⟩]⟩ => some (.sub (regOfValue x) (regOfValue y))
  | ⟨.shr, [⟨.reg, x⟩, ⟨.reg, y⟩]⟩ => some (.shr (regOfValue x) (regOfValue y))
  | ⟨.subn, [⟨.reg, x⟩, ⟨.reg, y⟩]⟩ => some (.subn (regOfValue x) (regOfValue y))
  | ⟨.shl, [⟨.reg, x⟩, ⟨.reg, y⟩]⟩ => some (.shl (regOfValue x) (regOfValue y))
  | ⟨.sne, [⟨.reg, x⟩, ⟨.reg, y⟩]⟩ => some (.sneVxVy (regOfValue x) (regOfValue y))
  | ⟨.ld, [⟨.index, _⟩, ⟨.constant, a⟩]⟩ => some (.ldIAddr (a.setWidth 12))
  | ⟨.jp, [⟨.reg, _⟩, ⟨.constant, a⟩]⟩ => some (.jpV0Addr (a.setWidth 12))
  | ⟨.rnd, [⟨.reg, x⟩, ⟨.constant, k⟩]⟩ => some (.rnd (regOfValue x) (k.setWidth 8))
  | ⟨.drw, [⟨.reg, x⟩, ⟨.reg, y⟩, ⟨.constant, n⟩]⟩ => some (.drw (regOfValue x) (regOfValue y) (n.setWidth 4))
  | ⟨.skp, [⟨.reg, x⟩]⟩ => some (.skp (regOfValue x))
  | ⟨.sknp, [⟨.reg, x⟩]⟩ => some (.sknp (regOfValue x))
  | ⟨.ld, [⟨.reg, x⟩, ⟨.dt, _⟩]⟩ => some (.ldVxDT (regOfValue x))
  | ⟨.ld, [⟨.reg, x⟩, ⟨.k, _⟩]⟩ => some (.ldVxK (regOfValue x))
  | ⟨.ld, [⟨.dt, _⟩, ⟨.reg, x⟩]⟩ => some (.ldDTVx (regOfValue x))
  | ⟨.ld, [⟨.st, _⟩, ⟨.reg, x⟩]⟩ => some (.ldSTVx (regOfValue x))
  | ⟨.add, [⟨.index, _⟩, ⟨.reg, x⟩]⟩ => some (.addIVx (regOfValue x))
  | ⟨.ld, [⟨.f, _⟩, ⟨.reg, x⟩]⟩ => some (.ldFVx (regOfValue x))
  | ⟨.ld, [⟨.b, _⟩, ⟨.reg, x⟩]⟩ => some (.ldBVx (regOfValue x))
  | ⟨.ld, [⟨.ati, _⟩, ⟨.reg, x⟩]⟩ => some (.ldATIVx (regOfValue x))
  | ⟨.ld, [⟨.reg, x⟩, ⟨.ati, _⟩]⟩ => some (.ldVxATI (regOfValue x))
  | _ => none

/-- The two encoder errors of R103. -/
inductive EncodeError where
  /-- A CONSTANT argument's value does not fit its field. -/
  | constantOutOfRange
  /-- No such shape, a register above 15, a nonzero valueless tag, JP Vr with r ≠ 0, or SYS 0x0E0 or 0x0EE. -/
  | unencodable
deriving DecidableEq, Repr

/-- The largest value the constant field of a form holds (R102): an address, a byte or DRW's nibble. -/
def Instr.constantMax : Instr → Nat
  | .sys _ | .jp _ | .call _ | .ldIAddr _ | .jpV0Addr _ => 0xFFF
  | .seVxByte _ _ | .sneVxByte _ _ | .ldVxByte _ _ | .addVxByte _ _ | .rnd _ _ => 0xFF
  | .drw _ _ _ => 0xF
  | .cls | .ret | .seVxVy _ _ | .ldVxVy _ _ | .or _ _ | .and _ _ | .xor _ _ | .addVxVy _ _ | .sub _ _ | .shr _ _
  | .subn _ _ | .shl _ _ | .sneVxVy _ _ | .skp _ | .sknp _ | .ldVxDT _ | .ldVxK _ | .ldDTVx _ | .ldSTVx _ | .addIVx _
  | .ldFVx _ | .ldBVx _ | .ldATIVx _ | .ldVxATI _ => 0

/-- Check 2 of R103: every V argument names a register. -/
def registersInRange (args : List Argument) : Bool :=
  args.all fun a => a.tag != .reg || decide (a.value.toNat ≤ 15)

/-- Check 3 of R103: a tag that carries no information has the value 0 (R77). -/
def valuelessAreZero (args : List Argument) : Bool :=
  args.all fun a => a.tag == .reg || a.tag == .constant || a.value == 0

/-- Check 4 of R103: every CONSTANT fits the field. -/
def constantsInRange (max : Nat) (args : List Argument) : Bool :=
  args.all fun a => a.tag != .constant || decide (a.value.toNat ≤ max)

/-- JP V(r), addr names register 0 (R84, R103, R144); every other form may name any register. -/
def jumpRegisterIsZero (i : Instr) (args : List Argument) : Bool :=
  match i with
  | .jpV0Addr _ => args.all fun a => a.tag != .reg || a.value == 0
  | _ => true

/-- `Encode` as the source writes it (R101 to R103): the word, or the error of the first check that fails, in the
order shape, register values, valueless tags, constant ranges, the SYS and JP special cases. -/
def encodeInstruction (ins : Instruction) : Except EncodeError Word :=
  match ins.form? with
  | none => .error .unencodable
  | some i =>
    if !registersInRange ins.args then .error .unencodable
    else if !valuelessAreZero ins.args then .error .unencodable
    else if !constantsInRange i.constantMax ins.args then .error .constantOutOfRange
    else if !(i.wellFormed && jumpRegisterIsZero i ins.args) then .error .unencodable
    else .ok (encode i)

/-- The form R132's Execute runs for an arbitrary instruction value: one of the 35 shapes, with operands its fields can
hold and V0 as the register of JP V0, addr; `none` for any other combination. Log entry 10. -/
def Instruction.executable? (ins : Instruction) : Option Instr :=
  match ins.form? with
  | none => none
  | some i =>
    if registersInRange ins.args && constantsInRange i.constantMax ins.args && jumpRegisterIsZero i ins.args then some i
    else none

end Sys2Proof
end

