-- ==== Sys2Proof/Machine/Tick.lean ====
section
/-! DEFINITION. The parts of the tick around Execute (spec/40_execution_cycle.md R120 to R129): fetch, decode, advance,
timers, the held tick and the precise fault. Machine/Step.lean puts them together. -/

namespace Sys2Proof.Machine

/-- The fetch (R121): an odd PC faults first, then a PC above 0xFFE; the word is `MemRead(PC, 2)`. -/
def fetchWord (s : State) : Except FaultCause Word :=
  if s.pc.toNat % 2 = 1 then .error .misalignedFetch
  else if s.pc.toNat > 0xFFE then .error .fetchOutOfBounds
  else
    match memRead s s.pc.toNat 2 with
    | .ok n => .ok (BitVec.ofNat 16 n)
    | .error c => .error c

/-- Fetch and decode: an INVALID word faults and never reaches Execute (R122). -/
def fetchInstr (s : State) : Except FaultCause Instr :=
  match fetchWord s with
  | .error c => .error c
  | .ok w =>
    match decode w with
    | .ok i => .ok i
    | .error _ => .error .invalidInstruction

/-- `PC <- PC + 2` in 16 bits, before Execute (R123). -/
def advancePC (s : State) : State := s.setPC (s.pc + 2)

/-- A timer counted down, saturating at 0 (R125). -/
def countDown (t : Byte) : Byte := if t = 0 then 0 else t - 1

/-- `DecrementTimers()` (R120, R125). -/
def decrementTimers (s : State) : State := (s.setDT (countDown s.dt)).setST (countDown s.st)

/-- The end of a tick that executed an instruction to completion: the timers, then CYCLES (R125, R126). -/
def completeTick (s : State) : State := (decrementTimers s).setCycles (s.cycles + 1)

/-- A held tick (R129): nothing is fetched or executed, and the timers count down only under TIMERS_DURING_KEY_WAIT,
which is free. Log entry 4. -/
def heldTick (s : State) : State := if Config.timersDuringKeyWait then decrementTimers s else s

/-- The end of the tick that began in `s0` (R120, R127): when Execute has raised a fault the state at the start of the
tick is restored and STATUS records the cause; otherwise the tick completes. -/
def endTick (s0 : State) : Host.Outcome State Fault Refusal → Host.Outcome State Fault Refusal
  | .next t =>
    match t.status with
    | .running => .next (completeTick t)
    | .faulted c => raiseFault s0 c
  | .fault r => .fault r
  | .refused r => .refused r

/-- `Continue`, the result of a tick that left the machine in `s` (R33, R133). -/
def continues (s : State) : Bool := s.status == .running

/-- PC can be fetched from: even and at most 0xFFE (R121). -/
def fetchable (pc : Word) : Bool := decide (pc.toNat % 2 = 0) && decide (pc.toNat ≤ 0xFFE)

end Sys2Proof.Machine
end

