-- ==== Sys2Proof/Machine/Step.lean ====
section
/-! DEFINITION. The step: one `Tick` (spec/40_execution_cycle.md R120), in the order of checks of
spec/60_exceptions.md R223; and the placing of one instruction word where the next tick fetches. -/

namespace Sys2Proof.Machine

/-- `Tick()` (R120). A FAULTED machine does not change (R128); a waiting machine has a held tick (R129); otherwise
fetch, decode, advance, execute, and the end of the tick. Its result Continue is `continues` of the next state. -/
def step (s : State) : Host.Outcome State Fault Refusal :=
  match s.status with
  | .faulted _ => .next s
  | .running =>
    if s.waitk = 0 then
      match fetchInstr s with
      | .ok i => endTick s (exec i (advancePC s))
      | .error c => raiseFault s c
    else .next (heldTick s)

/-- `s` with one instruction placed so that the very next step fetches and runs it: its word big-endian at PC (R53),
the machine RUNNING and not waiting for a key (R120), and PC at the entry point when it could not be fetched from
(R121). It stands for the host's LoadRom (R234, R253), log entry 2. -/
def State.withFetchWord (s : State) (nbits w : Nat) : State :=
  let pc : Word := if fetchable s.pc then s.pc else 0x200
  { s with
    pc := pc
    mem := s.mem.writeBytes pc.toNat (bytesOfWord (BitVec.ofNat 16 (w % 2 ^ nbits)))
    waitk := 0
    status := .running }

end Sys2Proof.Machine
end

