-- ==== Sys2Proof/Machine/Execute.lean ====
section
/-! DEFINITION. Execute on an arbitrary (type, args) value (spec/40_execution_cycle.md R132). A tick never needs it: the
decoder produces only the 35 forms. -/

namespace Sys2Proof.Machine

/-- Execute on any instruction value: the rule of its form, or UNSUPPORTED_SHAPE (R132, R220 code 10). Log entry 10. -/
def executeInstruction (ins : Instruction) (s : State) : Host.Outcome State Fault Refusal :=
  match ins.executable? with
  | some i => exec i s
  | none => raiseFault s .unsupportedShape

end Sys2Proof.Machine
end

