-- ==== Sys2Proof/Machine/HostActions.lean ====
section
/-! DEFINITION. What the host may do between ticks (spec/60_exceptions.md R231 to R236, spec/40_execution_cycle.md R130,
spec/70_reset_and_hazards.md R250, R253). No other action writes the state (R235), and none happens during a tick
(R236). -/

namespace Sys2Proof.Machine

/-- `Construct()` (R250), again or for the first time: every field at its reset value (R37), but the count of draws goes
on. Whether a second construction replays the draws of the first is left open by the spec (no seed: R14, R31, R37, D19);
DESIGN CHOICE, log entry 3: the draws after it are further free values, so that neither a repetition nor a difference can
be proved. -/
def hostConstruct (s : State) : State := State.reset.setDraws s.rngDraws

/-- Where a ROM is copied (R51, R234). -/
def romBase : Nat := 0x200

/-- The longest ROM: 4096 - 512 bytes (R7, R234). -/
def romMax : Nat := memSize - romBase

/-- `LoadRom(bytes)` (R234): the state after it, and whether it succeeded; a ROM that is too long leaves the state
unchanged. -/
def hostLoadRom (bytes : List Byte) (s : State) : State × Bool :=
  if bytes.length > romMax then (s, false) else (s.setMem (s.mem.writeBytes romBase bytes), true)

/-- `SetKeys(mask)` (R231). -/
def hostSetKeys (mask : Word) (s : State) : State := s.setKeys mask

/-- `KeyEvent(k)` for a key 0..15 (R130): it ends a key wait, and has no effect when there is none. KEYS is not
changed. -/
def keyEvent (k : Fin 16) (s : State) : State :=
  if h : s.waitk = 0 then s else (s.setV (s.waitk.pred h) (BitVec.ofNat 8 k.val)).setWaitk 0

/-- `KeyEvent(k)` for any number: a key above 15 breaks the host's duty and is refused (R231, D21). -/
def hostKeyEvent (k : Nat) (s : State) : Host.Outcome State Fault Refusal :=
  if h : k < 16 then .next (keyEvent ⟨k, h⟩ s) else .refused .keyEventOutOfRange

/-- `ReadScreen` (R231, R232). -/
def hostReadScreen (s : State) : Screen := s.screen

/-- `ObserveST` (R231, R233). -/
def hostObserveST (s : State) : Byte := s.st

/-- One move of a run (R228): a tick, or an action of the host between ticks. The host's two readings change nothing
and are no moves. -/
inductive Move where
  | tick
  | construct
  | loadRom (bytes : List Byte)
  | setKeys (mask : Word)
  | keyEvent (k : Nat)
deriving DecidableEq, Repr

/-- The effect of one move. -/
def makeMove (m : Move) (s : State) : Host.Outcome State Fault Refusal :=
  match m with
  | .tick => step s
  | .construct => .next (hostConstruct s)
  | .loadRom bytes => .next (hostLoadRom bytes s).1
  | .setKeys mask => .next (hostSetKeys mask s)
  | .keyEvent k => hostKeyEvent k s

/-- A run (R228): ticks and host actions in order. -/
def runMoves : List Move → State → Host.Outcome State Fault Refusal
  | [], s => .next s
  | m :: rest, s =>
    match makeMove m s with
    | .next t => runMoves rest t
    | .fault r => .fault r
    | .refused r => .refused r

end Sys2Proof.Machine
end

