-- ==== Sys2Proof/Safety.lean ====
section
/-! DEFINITION. What counts as a safe run (spec/60_exceptions.md R228), the states a run can be in (R38, R25), and the
words the statements use for what an instruction leaves unchanged. -/

namespace Sys2Proof.Machine

/-- A run has failed when STATUS is FAULTED(c) (R228). -/
def State.failed (s : State) : Bool := !continues s

/-- The states of the runs of R228: what ticks and host actions lead to from the constructed machine. -/
inductive Reachable : State → Prop where
  | construct : Reachable State.reset
  | move {s t : State} (m : Move) (hs : Reachable s) (h : makeMove m s = .next t) : Reachable t

/-- `k` ticks from `s` never fail (R228). -/
def safeFor : Nat → State → Prop
  | 0, s => s.failed = false
  | k + 1, s => s.failed = false ∧ ∃ t, step s = .next t ∧ safeFor k t

/-- The invariant of R25 and R38: memory is in canonical form; PC is at most 0x10FE; every stack slot holds an even
address of at most 0x1000 (what CALL pushes after a valid fetch). -/
structure State.Inv (s : State) : Prop where
  memWf : s.mem.wf = true
  pcBound : s.pc.toNat ≤ 0x10FE
  stackEven : ∀ k : Fin 16, s.stack[k].toNat % 2 = 0
  stackBound : ∀ k : Fin 16, s.stack[k].toNat ≤ 0x1000

/-- The parts of the state, memory and the registers among them. -/
inductive Part where
  | regs | index | dt | st | pc | sp | stack | mem | keys | waitk | screen | rng | cycles | status
deriving DecidableEq, Repr

/-- The part holds the same in both states; memory is compared byte by byte through `State.readByte`. -/
def Part.same (s t : State) : Part → Prop
  | .regs => ∀ r : Reg, t.getV r = s.getV r
  | .index => t.i = s.i
  | .dt => t.dt = s.dt
  | .st => t.st = s.st
  | .pc => t.pc = s.pc
  | .sp => t.sp = s.sp
  | .stack => ∀ k : Fin 16, t.stack[k] = s.stack[k]
  | .mem => ∀ a : Nat, t.readByte a = s.readByte a
  | .keys => t.keys = s.keys
  | .waitk => t.waitk = s.waitk
  | .screen => ∀ (y : Fin 32) (x : Fin 64), t.screen.pixel y x = s.screen.pixel y x
  | .rng => t.rngDraws = s.rngDraws
  | .cycles => t.cycles = s.cycles
  | .status => t.status = s.status

/-- Every part but the listed ones is unchanged: a frame. -/
def onlyChanges (ps : List Part) (s t : State) : Prop := ∀ p : Part, p ∉ ps → p.same s t

/-- Every register but the listed ones is unchanged. -/
def regsKeptBut (rs : List Reg) (s t : State) : Prop := ∀ r : Reg, r ∉ rs → t.getV r = s.getV r

/-- Execute raises `Fault(c)` (R13): the one change is STATUS. -/
def ruleFaults (i : Instr) (s : State) (c : FaultCause) : Prop :=
  ∃ t, exec i s = .next t ∧ t.status = .faulted c ∧ onlyChanges [.status] s t

/-- The tick from `s` faults with cause `c`, precisely (R127): the one change is STATUS. -/
def tickFaults (s : State) (c : FaultCause) : Prop :=
  ∃ t, step s = .next t ∧ t.status = .faulted c ∧ onlyChanges [.status] s t

/-- A tick from `s` fetches: RUNNING, not waiting for a key, PC even and at most 0xFFE (R120, R121). -/
def State.fetches (s : State) : Prop :=
  s.status = .running ∧ s.waitk = 0 ∧ s.pc.toNat % 2 = 0 ∧ s.pc.toNat ≤ 0xFFE

/-- The word a tick from `s` fetches: `MEM[PC] ++ MEM[PC+1]` (R53). -/
def State.wordAtPC (s : State) : Word := wordOfBytes (s.readByte s.pc.toNat) (s.readByte (s.pc.toNat + 1))

end Sys2Proof.Machine
end

