-- ==== Sys2Proof/Certificates/Slice0/Obligations.lean ====
section
/-! DEFINITION. The statements for the provers. In the statements about `exec`, `s` is the state a rule sees: PC has
already been advanced (spec/40_execution_cycle.md R123), and STATUS is the tick's concern (R120). -/

open Sys2Proof Sys2Proof.Machine

/-! ## Encoding (spec/30_encoding.md) -/

/-- R80 on a few words written out bit by bit from the patterns of R100. (Rests on the spec's own decision D23, log
entry 11.) -/
def Obligations.WordsWrittenFromTheMapDecode : Prop :=
  decode 0b0000000011100000#16 = .ok .cls ∧ decode 0b0000000011101110#16 = .ok .ret ∧
  decode 0b0000000100100011#16 = .ok (.sys 0x123) ∧ decode 0b0011000111111110#16 = .ok (.seVxByte 1 0xFE) ∧
  decode 0b0101000100101111#16 = .ok (.seVxVy 1 2) ∧ decode 0b1000001000000110#16 = .ok (.shr 2 0) ∧
  decode 0b1011010111111111#16 = .ok (.jpV0Addr 0x5FF) ∧ decode 0b1101000100100101#16 = .ok (.drw 1 2 5) ∧
  decode 0b1110111110011110#16 = .ok (.skp 15) ∧ decode 0b1111001101100101#16 = .ok (.ldVxATI 3) ∧
  decode 0b1000000100101000#16 = .error (.invalid 0x8128)

/-- R104 (b) on the sum type: no bit of an encoding is dropped, for every well-formed instruction. (The low nibble of
groups 5 and 9 is the spec's own decision D23, log entry 11.) -/
def Obligations.DecodeOfEncodeIsTheInstruction : Prop :=
  ∀ i : Instr, i.wellFormed = true → decode (encode i) = .ok i

/-- R104, the three round-trip laws, on the source's (type, args) model. (Rests on the spec's own decisions D23, D25,
D26, log entry 11.) -/
def Obligations.RoundTripLaws : Prop :=
  (∀ w, (decodeInstruction w).type ≠ .invalid →
    ∃ w', encodeInstruction (decodeInstruction w) = .ok w' ∧ decodeInstruction w' = decodeInstruction w) ∧
  (∀ ins w, encodeInstruction ins = .ok w → decodeInstruction w = ins) ∧
  (∀ w, (decodeInstruction w).type ≠ .invalid → encodeInstruction (decodeInstruction w) =
    .ok (if (fieldGroup w = 0x5 ∨ fieldGroup w = 0x9) ∧ fieldLSN w ≠ 0 then w &&& 0xFFF0 else w))

/-- R83, R85, R86, R87: exactly which words are INVALID, and that the raw word is kept as the one argument. (Rests on
the spec's own decision D24, log entry 11.) -/
def Obligations.InvalidWordsAreExactlyThese : Prop :=
  ∀ w : Word,
    ((decodeInstruction w).type = .invalid ↔
      (fieldGroup w = 0x8 ∧ fieldLSN w ∈ [0x8#4, 0x9#4, 0xA#4, 0xB#4, 0xC#4, 0xD#4, 0xF#4]) ∨
        (fieldGroup w = 0xE ∧ fieldLSB w ∉ [0x9E#8, 0xA1#8]) ∨
        (fieldGroup w = 0xF ∧
          fieldLSB w ∉ [0x07#8, 0x0A#8, 0x15#8, 0x18#8, 0x1E#8, 0x29#8, 0x33#8, 0x55#8, 0x65#8])) ∧
    ((decodeInstruction w).type = .invalid → (decodeInstruction w).args = [⟨.constant, w⟩])

/-- R81, R83, R85, R86: the groups that are dispatched further, each value of the sub-opcode; a value outside the named
ones is rejected with the word kept (the source's own sentence, quoted in R87). -/
def Obligations.GroupsDispatchedFurther : Prop :=
  ∀ w : Word,
    (fieldGroup w = 0x0 → decode w =
      .ok (if w = 0x00E0 then .cls else if w = 0x00EE then .ret else .sys (fieldAddr w))) ∧
    (fieldGroup w = 0x8 →
      (fieldLSN w = 0x0 → decode w = .ok (.ldVxVy (fieldX w) (fieldY w))) ∧
      (fieldLSN w = 0x1 → decode w = .ok (.or (fieldX w) (fieldY w))) ∧
      (fieldLSN w = 0x2 → decode w = .ok (.and (fieldX w) (fieldY w))) ∧
      (fieldLSN w = 0x3 → decode w = .ok (.xor (fieldX w) (fieldY w))) ∧
      (fieldLSN w = 0x4 → decode w = .ok (.addVxVy (fieldX w) (fieldY w))) ∧
      (fieldLSN w = 0x5 → decode w = .ok (.sub (fieldX w) (fieldY w))) ∧
      (fieldLSN w = 0x6 → decode w = .ok (.shr (fieldX w) (fieldY w))) ∧
      (fieldLSN w = 0x7 → decode w = .ok (.subn (fieldX w) (fieldY w))) ∧
      (fieldLSN w = 0xE → decode w = .ok (.shl (fieldX w) (fieldY w))) ∧
      (fieldLSN w ∉ [0x0#4, 0x1#4, 0x2#4, 0x3#4, 0x4#4, 0x5#4, 0x6#4, 0x7#4, 0xE#4] → decode w = .error (.invalid w))) ∧
    (fieldGroup w = 0xE →
      (fieldLSB w = 0x9E → decode w = .ok (.skp (fieldX w))) ∧
      (fieldLSB w = 0xA1 → decode w = .ok (.sknp (fieldX w))) ∧
      (fieldLSB w ∉ [0x9E#8, 0xA1#8] → decode w = .error (.invalid w))) ∧
    (fieldGroup w = 0xF →
      (fieldLSB w = 0x07 → decode w = .ok (.ldVxDT (fieldX w))) ∧
      (fieldLSB w = 0x0A → decode w = .ok (.ldVxK (fieldX w))) ∧
      (fieldLSB w = 0x15 → decode w = .ok (.ldDTVx (fieldX w))) ∧
      (fieldLSB w = 0x18 → decode w = .ok (.ldSTVx (fieldX w))) ∧
      (fieldLSB w = 0x1E → decode w = .ok (.addIVx (fieldX w))) ∧
      (fieldLSB w = 0x29 → decode w = .ok (.ldFVx (fieldX w))) ∧
      (fieldLSB w = 0x33 → decode w = .ok (.ldBVx (fieldX w))) ∧
      (fieldLSB w = 0x55 → decode w = .ok (.ldATIVx (fieldX w))) ∧
      (fieldLSB w = 0x65 → decode w = .ok (.ldVxATI (fieldX w))) ∧
      (fieldLSB w ∉ [0x07#8, 0x0A#8, 0x15#8, 0x18#8, 0x1E#8, 0x29#8, 0x33#8, 0x55#8, 0x65#8] →
        decode w = .error (.invalid w)))

/-- R100: the decoder follows the opcode map: a word decodes to a form exactly when it selects that form's row, no word
selects two rows, and a word that selects none is rejected with the word kept. (Rests on the spec's own decision
D23, log entry 11.) -/
def Obligations.DecoderFollowsTheOpcodeMap : Prop :=
  (∀ w i, decode w = .ok i → selectsRow w i = true) ∧
  (∀ w i, selectsRow w i = true → ∃ j, decode w = .ok j ∧ tableRow j = tableRow i) ∧
  (∀ w, (∀ i, selectsRow w i = false) → decode w = .error (.invalid w))

/-- R103, for every instruction value: the limit of each constant field, the error of the first check that fails in the
order shape, registers, valueless tags, constants, SYS and JP special cases, and the word when none fails. (Rests on the
spec's own decisions D25, D26, log entry 11.) -/
def Obligations.EncoderRefuses : Prop :=
  (∀ args, encodeInstruction ⟨.invalid, args⟩ = .error .unencodable) ∧
  (∀ ins : Instruction, ins.form? = none → encodeInstruction ins = .error .unencodable) ∧
  (∀ nnn : Addr, ∀ i ∈ [Instr.sys nnn, .jp nnn, .call nnn, .ldIAddr nnn, .jpV0Addr nnn], i.constantMax = 0xFFF) ∧
  (∀ (x : Reg) (kk : Byte), ∀ i ∈ [Instr.seVxByte x kk, .sneVxByte x kk, .ldVxByte x kk, .addVxByte x kk, .rnd x kk],
    i.constantMax = 0xFF) ∧
  (∀ (x y : Reg) (n : Nibble), (Instr.drw x y n).constantMax = 0xF) ∧
  (∀ (ins : Instruction) (i : Instr), ins.form? = some i →
    ((∃ a ∈ ins.args, a.tag = .reg ∧ 15 < a.value.toNat) → encodeInstruction ins = .error .unencodable) ∧
    ((∃ a ∈ ins.args, a.tag ∉ [ArgTag.reg, .constant] ∧ a.value ≠ 0) → encodeInstruction ins = .error .unencodable) ∧
    ((∀ a ∈ ins.args, a.tag = .reg → a.value.toNat ≤ 15) →
      (∀ a ∈ ins.args, a.tag ∉ [ArgTag.reg, .constant] → a.value = 0) →
      ((∃ a ∈ ins.args, a.tag = .constant ∧ i.constantMax < a.value.toNat) →
        encodeInstruction ins = .error .constantOutOfRange) ∧
      ((∀ a ∈ ins.args, a.tag = .constant → a.value.toNat ≤ i.constantMax) →
        (let special := i = .sys 0x0E0 ∨ i = .sys 0x0EE ∨
            ((∃ nnn, i = .jpV0Addr nnn) ∧ ∃ a ∈ ins.args, a.tag = .reg ∧ a.value ≠ 0)
         (special → encodeInstruction ins = .error .unencodable) ∧
         (¬ special → encodeInstruction ins = .ok (encode i))))))

/-! ## The tick (spec/40_execution_cycle.md) -/

/-- R120, R123 to R127: when the bytes at PC decode to `i`, the step is Execute of `i` on the state with PC advanced;
then the timers count down and CYCLES goes up, or, when the rule faulted, only STATUS has changed. (Rests on the
spec's own decisions D4, D22, D39, log entry 11.) -/
def Obligations.StepRunsTheDecodedInstruction : Prop :=
  ∀ (s t : State) (i : Instr), s.fetches → decode s.wordAtPC = .ok i → exec i (s.setPC (s.pc + 2)) = .next t →
    (t.status = .running → ∃ u, step s = .next u ∧ u.dt.toNat = t.dt.toNat - 1 ∧ u.st.toNat = t.st.toNat - 1 ∧
      u.cycles = t.cycles + 1 ∧ onlyChanges [.dt, .st, .cycles] t u) ∧
    (∀ c, t.status = .faulted c → ∃ u, step s = .next u ∧ u.status = .faulted c ∧ onlyChanges [.status] s u)

/-- The host's aid: a word placed by `withFetchWord` is the word the next step fetches, whatever the state was. (The
model's own operation, log entry 2.) -/
def Obligations.PlacedWordIsFetched : Prop :=
  ∀ (s : State) (w : Nat),
    (s.withFetchWord 16 w).fetches ∧ (s.withFetchWord 16 w).wordAtPC = BitVec.ofNat 16 w

/-- R121: the fetch's two faults, misalignment first, and the word it reads otherwise. (Rests on the spec's own
decisions D2, D3, log entry 11.) -/
def Obligations.FetchFaultsAndFetchedWord : Prop :=
  ∀ s : State, s.status = .running → s.waitk = 0 →
    (s.pc.toNat % 2 = 1 → tickFaults s .misalignedFetch) ∧
    (s.pc.toNat % 2 = 0 → 0xFFE < s.pc.toNat → tickFaults s .fetchOutOfBounds) ∧
    (s.pc.toNat % 2 = 0 → s.pc.toNat ≤ 0xFFE →
      fetchWord s = .ok (s.readByte s.pc.toNat ++ s.readByte (s.pc.toNat + 1)))

/-- R122: an INVALID word never reaches Execute; the tick faults with PC on the word and the timers as they were.
(Rests on the spec's own decision D5, log entry 11.) -/
def Obligations.InvalidWordFaults : Prop :=
  ∀ s : State, s.fetches → (decodeInstruction s.wordAtPC).type = .invalid → tickFaults s .invalidInstruction

/-- R127: a tick that ends FAULTED changes nothing but STATUS, whatever raised the fault. (Rests on the spec's own
decision D4, log entry 11.) -/
def Obligations.FaultingTickChangesOnlyStatus : Prop :=
  ∀ (s t : State) (c : FaultCause), step s = .next t → t.status = .faulted c → t = s.setStatus (.faulted c)

/-- R128: a tick on a FAULTED machine changes nothing, and Continue is false. (Rests on the spec's own decisions D32,
D42, log entry 11.) -/
def Obligations.FaultedMachineStays : Prop :=
  ∀ (s : State) (c : FaultCause), s.status = .faulted c → step s = .next s ∧ continues s = false

/-- R129: a held tick; whether the timers count down is TIMERS_DURING_KEY_WAIT, both of whose values are covered.
(Rests on the spec's own decisions D20 and D39, log entry 11; the parameter is free, log entry 4.) -/
def Obligations.HeldTick : Prop :=
  ∀ s : State, s.status = .running → s.waitk ≠ 0 →
    ∃ t, step s = .next t ∧ onlyChanges [.dt, .st] s t ∧ continues t = true ∧
      (Config.timersDuringKeyWait = false → t.dt = s.dt ∧ t.st = s.st) ∧
      (Config.timersDuringKeyWait = true → t.dt.toNat = s.dt.toNat - 1 ∧ t.st.toNat = s.st.toNat - 1)

/-- R126: CYCLES goes up by one in exactly the ticks that execute an instruction to completion. (Rests on the spec's
own decisions D22, D39, log entry 11.) -/
def Obligations.CyclesCountCompletedTicks : Prop :=
  ∀ s t : State, step s = .next t →
    t.cycles = if s.status = .running ∧ s.waitk = 0 ∧ t.status = .running then s.cycles + 1 else s.cycles

/-- R163, R165, R166 through a whole tick: LD Vx,DT reads DT before the decrement, and a value written to DT or ST is
decremented in the same tick. -/
def Obligations.TimerTransfersThroughATick : Prop :=
  ∀ (s : State) (x : Reg), s.fetches →
    (decode s.wordAtPC = .ok (.ldVxDT x) →
      ∃ t, step s = .next t ∧ t.getV x = s.dt ∧ t.dt.toNat = s.dt.toNat - 1 ∧ t.st.toNat = s.st.toNat - 1) ∧
    (decode s.wordAtPC = .ok (.ldDTVx x) →
      ∃ t, step s = .next t ∧ t.dt.toNat = (s.getV x).toNat - 1 ∧ t.st.toNat = s.st.toNat - 1) ∧
    (decode s.wordAtPC = .ok (.ldSTVx x) →
      ∃ t, step s = .next t ∧ t.st.toNat = (s.getV x).toNat - 1 ∧ t.dt.toNat = s.dt.toNat - 1)

/-- Nothing stops the machine without a next state: Execute is total over the 35 forms (R132), and so is the tick
(R127, R128, R129). (Rests on the spec's own decisions D4 and D38, log entries 1 and 11.) -/
def Obligations.EveryStepAnswersNext : Prop :=
  (∀ (i : Instr) (s : State), ∃ t, exec i s = .next t) ∧ (∀ s : State, ∃ t, step s = .next t)

/-- R132: Execute on a shape outside the 35 forms raises UNSUPPORTED_SHAPE; on what the decoder produces it is the
form's rule. (Rests on the spec's own decision D38, log entry 11.) -/
def Obligations.ExecuteOnAnyInstructionValue : Prop :=
  (∀ (ins : Instruction) (s : State), ins.form? = none →
    ∃ t, executeInstruction ins s = .next t ∧ t.status = .faulted .unsupportedShape ∧ onlyChanges [.status] s t) ∧
  (∀ (w : Word) (i : Instr) (s : State), decode w = .ok i → executeInstruction (decodeInstruction w) s = exec i s)

/-! ## Control flow (spec/41_control_flow.md) -/

/-- R141: SYS takes the fault SYS_NOT_IMPLEMENTED, whatever its address. (Rests on the spec's own decision D8, log
entry 11.) -/
def Obligations.SysTakesItsFault : Prop := ∀ (nnn : Addr) (s : State), ruleFaults (.sys nnn) s .sysNotImplemented

/-- R142: RET, and its fault on an empty stack. The popped slot is not cleared. (Rests on the spec's own decisions D7,
D35, log entry 11.) -/
def Obligations.RetPopsThePC : Prop :=
  ∀ s : State,
    (∀ k : Fin 16, s.sp.val = k.val + 1 →
      ∃ t, exec .ret s = .next t ∧ t.sp.val = k.val ∧ t.pc = s.stack[k] ∧ onlyChanges [.sp, .pc] s t) ∧
    (s.sp.val = 0 → ruleFaults .ret s .stackUnderflow)

/-- R143, R144: the two jumps; the sum of JP V0 does not wrap. -/
def Obligations.JumpsSetThePC : Prop :=
  ∀ (s : State) (nnn : Addr),
    (∃ t, exec (.jp nnn) s = .next t ∧ t.pc.toNat = nnn.toNat ∧ onlyChanges [.pc] s t) ∧
    (∃ t, exec (.jpV0Addr nnn) s = .next t ∧ t.pc.toNat = nnn.toNat + (s.getV 0).toNat ∧ t.pc.toNat ≤ 0x10FE ∧
      onlyChanges [.pc] s t)

/-- R145: CALL, and its fault when all 16 slots are in use. (Rests on the spec's own decision D6, log entry 11.) -/
def Obligations.CallPushesThePC : Prop :=
  ∀ (s : State) (nnn : Addr),
    (∀ k : Fin 16, s.sp.val = k.val →
      ∃ t, exec (.call nnn) s = .next t ∧ t.stack[k] = s.pc ∧ (∀ j : Fin 16, j ≠ k → t.stack[j] = s.stack[j]) ∧
        t.sp.val = s.sp.val + 1 ∧ t.pc.toNat = nnn.toNat ∧ onlyChanges [.stack, .sp, .pc] s t) ∧
    (s.sp.val = 16 → ruleFaults (.call nnn) s .stackOverflow)

/-- The pairing of R142 and R145: RET gives back the PC that CALL pushed, after any body that leaves the stack as CALL
left it. (Rests on the spec's own decisions D6, D7, log entry 11.) -/
def Obligations.CallThenRetRestoresThePC : Prop :=
  ∀ (s : State) (nnn : Addr), s.sp.val < 16 →
    ∃ t, exec (.call nnn) s = .next t ∧
      ∀ b : State, b.sp = t.sp → b.stack = t.stack → ∃ u, exec .ret b = .next u ∧ u.pc = s.pc ∧ u.sp = s.sp

/-- R146, R147, with the skip of R140. -/
def Obligations.SkipsOnAByte : Prop :=
  ∀ (s : State) (x : Reg) (kk : Byte),
    (∃ t, exec (.seVxByte x kk) s = .next t ∧ t.pc = (if s.getV x = kk then s.pc + 2 else s.pc) ∧
      onlyChanges [.pc] s t) ∧
    (∃ t, exec (.sneVxByte x kk) s = .next t ∧ t.pc = (if s.getV x ≠ kk then s.pc + 2 else s.pc) ∧
      onlyChanges [.pc] s t)

/-- R148, R149: the skips on two registers, for every word of groups 5 and 9, whose low nibble is not looked at (R82).
(Rests on the spec's own decision D23, log entry 11.) -/
def Obligations.SkipsOnTwoRegisters : Prop :=
  (∀ (w : Word) (s : State), fieldGroup w = 0x5 → decode w = .ok (.seVxVy (fieldX w) (fieldY w)) ∧
    ∃ t, exec (.seVxVy (fieldX w) (fieldY w)) s = .next t ∧
      t.pc = (if s.getV (fieldX w) = s.getV (fieldY w) then s.pc + 2 else s.pc) ∧ onlyChanges [.pc] s t) ∧
  (∀ (w : Word) (s : State), fieldGroup w = 0x9 → decode w = .ok (.sneVxVy (fieldX w) (fieldY w)) ∧
    ∃ t, exec (.sneVxVy (fieldX w) (fieldY w)) s = .next t ∧
      t.pc = (if s.getV (fieldX w) ≠ s.getV (fieldY w) then s.pc + 2 else s.pc) ∧ onlyChanges [.pc] s t)

/-- R150, R151: the skips on keys, and their fault when V[x] is no key. (Rests on the spec's own decision D10, log
entry 11.) -/
def Obligations.SkipsOnKeys : Prop :=
  ∀ (s : State) (x : Reg),
    ((s.getV x).toNat ≤ 15 →
      (∃ t, exec (.skp x) s = .next t ∧
        t.pc = (if s.keys.getLsbD (s.getV x).toNat = true then s.pc + 2 else s.pc) ∧ onlyChanges [.pc] s t) ∧
      (∃ t, exec (.sknp x) s = .next t ∧
        t.pc = (if s.keys.getLsbD (s.getV x).toNat = false then s.pc + 2 else s.pc) ∧ onlyChanges [.pc] s t)) ∧
    (15 < (s.getV x).toNat → ruleFaults (.skp x) s .keyOutOfRange ∧ ruleFaults (.sknp x) s .keyOutOfRange)

/-! ## Loads (spec/42_loads.md) -/

/-- R160, R161, and the exec side of R163: the loads of one register. -/
def Obligations.LoadsOfARegister : Prop :=
  ∀ (s : State) (x y : Reg) (kk : Byte),
    (∃ t, exec (.ldVxByte x kk) s = .next t ∧ t.getV x = kk ∧ regsKeptBut [x] s t ∧ onlyChanges [.regs] s t) ∧
    (∃ t, exec (.ldVxVy x y) s = .next t ∧ t.getV x = s.getV y ∧ regsKeptBut [x] s t ∧ onlyChanges [.regs] s t) ∧
    (∃ t, exec (.ldVxDT x) s = .next t ∧ t.getV x = s.dt ∧ regsKeptBut [x] s t ∧ onlyChanges [.regs] s t)

/-- R162, R167: an address, and the address of a glyph, into I. -/
def Obligations.LoadsOfTheIndexRegister : Prop :=
  ∀ (s : State) (x : Reg) (nnn : Addr),
    (∃ t, exec (.ldIAddr nnn) s = .next t ∧ t.i.toNat = nnn.toNat ∧ onlyChanges [.index] s t) ∧
    (∃ t, exec (.ldFVx x) s = .next t ∧ t.i.toNat = 5 * ((s.getV x).toNat % 16) ∧ onlyChanges [.index] s t)

/-- The exec side of R165 and R166: the writes of the timers. -/
def Obligations.WritesOfTheTimers : Prop :=
  ∀ (s : State) (x : Reg),
    (∃ t, exec (.ldDTVx x) s = .next t ∧ t.dt = s.getV x ∧ onlyChanges [.dt] s t) ∧
    (∃ t, exec (.ldSTVx x) s = .next t ∧ t.st = s.getV x ∧ onlyChanges [.st] s t)

/-- R164: LD Vx,K sets the latch and writes no register. -/
def Obligations.KeyWaitSetsTheLatch : Prop :=
  ∀ (s : State) (x : Reg),
    ∃ t, exec (.ldVxK x) s = .next t ∧ t.waitk.val = x.val + 1 ∧ onlyChanges [.waitk] s t

/-- R168: LD B stores the three decimal digits at I, I+1, I+2, or faults and writes nothing. (Rests on the spec's own
decisions D3, D15, log entry 11.) -/
def Obligations.BcdStore : Prop :=
  ∀ (s : State) (x : Reg),
    (s.i.toNat + 2 ≤ 0xFFF →
      ∃ t, exec (.ldBVx x) s = .next t ∧
        (t.readByte (indirectAddr s 0)).toNat = (s.getV x).toNat / 100 ∧
        (t.readByte (indirectAddr s 1)).toNat = (s.getV x).toNat / 10 % 10 ∧
        (t.readByte (indirectAddr s 2)).toNat = (s.getV x).toNat % 10 ∧
        (∀ a, a < indirectAddr s 0 ∨ indirectAddr s 0 + 3 ≤ a → t.readByte a = s.readByte a) ∧
        onlyChanges [.mem] s t) ∧
    (0xFFF < s.i.toNat + 2 → ruleFaults (.ldBVx x) s .memOutOfBounds)

/-- R169: LD [I],Vx stores V0..Vx at I .. I+x, or faults and writes nothing. (Rests on the spec's own decisions D3,
D15, log entry 11.) -/
def Obligations.RegisterBlockStore : Prop :=
  ∀ (s : State) (x : Reg),
    (s.i.toNat + x.val ≤ 0xFFF →
      ∃ t, exec (.ldATIVx x) s = .next t ∧
        (∀ r : Reg, r ≤ x → t.readByte (indirectAddr s r.val) = s.getV r) ∧
        (∀ a, a < indirectAddr s 0 ∨ indirectAddr s 0 + (x.val + 1) ≤ a → t.readByte a = s.readByte a) ∧
        onlyChanges [.mem] s t) ∧
    (0xFFF < s.i.toNat + x.val → ruleFaults (.ldATIVx x) s .memOutOfBounds)

/-- R170: LD Vx,[I] loads V0..Vx from I .. I+x, or faults and writes nothing. (Rests on the spec's own decisions D3,
D15, log entry 11.) -/
def Obligations.RegisterBlockLoad : Prop :=
  ∀ (s : State) (x : Reg),
    (s.i.toNat + x.val ≤ 0xFFF →
      ∃ t, exec (.ldVxATI x) s = .next t ∧
        (∀ r : Reg, r ≤ x → t.getV r = s.readByte (indirectAddr s r.val)) ∧
        (∀ r : Reg, x < r → t.getV r = s.getV r) ∧ onlyChanges [.regs] s t) ∧
    (0xFFF < s.i.toNat + x.val → ruleFaults (.ldVxATI x) s .memOutOfBounds)

/-- R62: the bytes a block store puts where PC points are the word the next fetch reads. (Rests on the spec's own
decision D28, log entry 11.) -/
def Obligations.StoreIsSeenByTheNextFetch : Prop :=
  ∀ (s t : State) (x : Reg), s.i.toNat + x.val ≤ 0xFFF → exec (.ldATIVx x) s = .next t →
    ∀ r r' : Reg, r'.val = r.val + 1 → r' ≤ x → s.pc.toNat = indirectAddr s r.val → s.pc.toNat % 2 = 0 →
      fetchWord t = .ok (s.getV r ++ s.getV r')

/-! ## Arithmetic, logic, shifts, RND (spec/43_arithmetic.md) -/

/-- R180: the immediate addition wraps and writes no flag. -/
def Obligations.AddImmediate : Prop :=
  ∀ (s : State) (x : Reg) (kk : Byte),
    ∃ t, exec (.addVxByte x kk) s = .next t ∧ (t.getV x).toNat = ((s.getV x).toNat + kk.toNat) % 256 ∧
      regsKeptBut [x] s t ∧ onlyChanges [.regs] s t

/-- R182: the addition to I wraps modulo 2^16 and writes no flag. (Rests on the spec's own decision D16, log entry 11.) -/
def Obligations.AddToTheIndexRegister : Prop :=
  ∀ (s : State) (x : Reg),
    ∃ t, exec (.addIVx x) s = .next t ∧ t.i.toNat = (s.i.toNat + (s.getV x).toNat) % 65536 ∧ onlyChanges [.index] s t

/-- R181: the register addition and its carry; when Vx is VF the carry is what VF holds. (Rests on the spec's own
decision D12, log entry 11.) -/
def Obligations.AddRegisters : Prop :=
  ∀ (s : State) (x y : Reg),
    ∃ t, exec (.addVxVy x y) s = .next t ∧
      (x ≠ VF → (t.getV x).toNat = ((s.getV x).toNat + (s.getV y).toNat) % 256) ∧
      (t.getV VF).toNat = (if (s.getV x).toNat + (s.getV y).toNat > 255 then 1 else 0) ∧
      regsKeptBut [x, VF] s t ∧ onlyChanges [.regs] s t

/-- R183, R184, R185: bit by bit, with VF unmodified unless it is Vx. -/
def Obligations.LogicOnRegisters : Prop :=
  ∀ (s : State) (x y : Reg),
    (∃ t, exec (.or x y) s = .next t ∧
      (∀ b < 8, (t.getV x).getLsbD b = ((s.getV x).getLsbD b || (s.getV y).getLsbD b)) ∧
      regsKeptBut [x] s t ∧ onlyChanges [.regs] s t) ∧
    (∃ t, exec (.and x y) s = .next t ∧
      (∀ b < 8, (t.getV x).getLsbD b = ((s.getV x).getLsbD b && (s.getV y).getLsbD b)) ∧
      regsKeptBut [x] s t ∧ onlyChanges [.regs] s t) ∧
    (∃ t, exec (.xor x y) s = .next t ∧
      (∀ b < 8, (t.getV x).getLsbD b = ((s.getV x).getLsbD b ^^ (s.getV y).getLsbD b)) ∧
      regsKeptBut [x] s t ∧ onlyChanges [.regs] s t)

/-- R186: SUB; the flag is strict and is written first, so an operand that is VF is read as the flag. (Rests on the
spec's own decision D11, log entry 11.) -/
def Obligations.SubtractRegisters : Prop :=
  ∀ (s : State) (x y : Reg),
    ∃ t, exec (.sub x y) s = .next t ∧
      (let f := if (s.getV x).toNat > (s.getV y).toNat then 1 else 0
       (t.getV x).toNat =
         ((if x = VF then f else (s.getV x).toNat) + 256 - (if y = VF then f else (s.getV y).toNat)) % 256 ∧
       (x ≠ VF → (t.getV VF).toNat = f)) ∧
      regsKeptBut [x, VF] s t ∧ onlyChanges [.regs] s t

/-- R187: SUBN, the difference the other way round. (Rests on the spec's own decision D11, log entry 11.) -/
def Obligations.SubtractReversed : Prop :=
  ∀ (s : State) (x y : Reg),
    ∃ t, exec (.subn x y) s = .next t ∧
      (let f := if (s.getV y).toNat > (s.getV x).toNat then 1 else 0
       (t.getV x).toNat =
         ((if y = VF then f else (s.getV y).toNat) + 256 - (if x = VF then f else (s.getV x).toNat)) % 256 ∧
       (x ≠ VF → (t.getV VF).toNat = f)) ∧
      regsKeptBut [x, VF] s t ∧ onlyChanges [.regs] s t

/-- R188: SHR reads Vy, writes it back shifted and copies it to Vx; the flag, written first, is the bit shifted out.
(Rests on the spec's own decisions D11, D14, log entry 11.) -/
def Obligations.ShiftRight : Prop :=
  ∀ (s : State) (x y : Reg),
    ∃ t, exec (.shr x y) s = .next t ∧
      (let f := (s.getV y).toNat % 2
       let w := (if y = VF then f else (s.getV y).toNat) / 2
       (t.getV x).toNat = w ∧ (t.getV y).toNat = w ∧ (x ≠ VF → y ≠ VF → (t.getV VF).toNat = f)) ∧
      regsKeptBut [x, y, VF] s t ∧ onlyChanges [.regs] s t

/-- R189: SHL for both values of SHL_VF_BIT; the instruction is the one for the parameter's value. (Rests on the spec's
own decisions D11, D13 and D14, log entries 5 and 11.) -/
def Obligations.ShiftLeft : Prop :=
  ∀ (s : State) (x y : Reg),
    exec (.shl x y) s = .next (shlBy shlVfBit x y s) ∧
    ∀ sel : Config.ShlVfBit,
      (let f := if sel = .low then (s.getV y).toNat % 2 else (s.getV y).toNat / 128 % 2
       let w := (if y = VF then f else (s.getV y).toNat) * 2 % 256
       ((shlBy sel x y s).getV x).toNat = w ∧ ((shlBy sel x y s).getV y).toNat = w ∧
         (x ≠ VF → y ≠ VF → ((shlBy sel x y s).getV VF).toNat = f)) ∧
      regsKeptBut [x, y, VF] s (shlBy sel x y s) ∧ onlyChanges [.regs] s (shlBy sel x y s)

/-- R190: RND consumes exactly one draw of the oracle, about which nothing is assumed. (Rests on the spec's own
decision D19; the count of draws is the model's own field, log entry 3.) -/
def Obligations.RandomByteMasked : Prop :=
  ∀ (s : State) (x : Reg) (kk : Byte),
    ∃ t, exec (.rnd x kk) s = .next t ∧ t.getV x = kk &&& Config.rngDraw s.rngDraws ∧ t.rngDraws = s.rngDraws + 1 ∧
      regsKeptBut [x] s t ∧ onlyChanges [.regs, .rng] s t

/-! ## Display (spec/44_display.md) -/

/-- R200. -/
def Obligations.ClearScreen : Prop :=
  ∀ s : State, ∃ t, exec .cls s = .next t ∧ (∀ (y : Fin 32) (x : Fin 64), t.screen.pixel y x = false) ∧
    onlyChanges [.screen] s t

/-- R201 to R204, pixel by pixel: a pixel changes exactly when a set bit of the sprite falls on it, VF is 1 exactly
when such a bit falls on a set pixel, and the two faults come first, the height's before the memory's. (Rests on
the spec's own decisions D3, D9, D17 and D37, log entries 9 and 11.) -/
def Obligations.DrawPixelByPixel : Prop :=
  ∀ (s : State) (x y : Reg) (n : Nibble),
    (n = 0 → ruleFaults (.drw x y n) s .drawHeightZero) ∧
    (n ≠ 0 → 0xFFF < s.i.toNat + n.toNat - 1 → ruleFaults (.drw x y n) s .memOutOfBounds) ∧
    (n ≠ 0 → s.i.toNat + n.toNat - 1 ≤ 0xFFF →
      ∃ t, exec (.drw x y n) s = .next t ∧
        (∀ (py : Fin 32) (px : Fin 64),
          (t.screen.pixel py px ≠ s.screen.pixel py px ↔
            ∃ row < n.toNat, ∃ col < 8, py.val = ((s.getV y).toNat + row) % 32 ∧
              px.val = ((s.getV x).toNat + col) % 64 ∧
              (s.readByte (indirectAddr s row)).getLsbD (7 - col) = true)) ∧
        ((∃ row < n.toNat, ∃ col < 8, (s.readByte (indirectAddr s row)).getLsbD (7 - col) = true ∧
            s.screen.pixel (screenY (s.getV y).toNat row) (screenX (s.getV x).toNat col) = true) →
          t.getV VF = 1) ∧
        (¬ (∃ row < n.toNat, ∃ col < 8, (s.readByte (indirectAddr s row)).getLsbD (7 - col) = true ∧
            s.screen.pixel (screenY (s.getV y).toNat row) (screenX (s.getV x).toNat col) = true) →
          t.getV VF = 0) ∧
        regsKeptBut [VF] s t ∧ onlyChanges [.screen, .regs] s t)

/-- R205, its first half, and what R201 and R204 give for its second: drawing the same sprite at the same place again
restores the screen, and the second draw reports a collision exactly when a 1 bit of the sprite falls on a pixel that
was clear before the first (log entry 12). The registers of the second draw may differ: they need only hold the
coordinates of the first. -/
def Obligations.DrawingTwiceRestoresTheScreen : Prop :=
  ∀ (s t : State) (x y x' y' : Reg) (n : Nibble), n ≠ 0 → s.i.toNat + n.toNat - 1 ≤ 0xFFF →
    exec (.drw x y n) s = .next t → t.getV x' = s.getV x → t.getV y' = s.getV y →
    ∃ u, exec (.drw x' y' n) t = .next u ∧ u.screen = s.screen ∧
      (let hit := ∃ row < n.toNat, ∃ col < 8, (s.readByte (indirectAddr s row)).getLsbD (7 - col) = true ∧
         s.screen.pixel (screenY (s.getV y).toNat row) (screenX (s.getV x).toNat col) = false
       (hit → u.getV VF = 1) ∧ (¬ hit → u.getV VF = 0))

/-- R205, its second half as written (C5 says the same): the second draw reports VF = 1 if and only if the sprite has a
1 bit. It is EXPECTED TO FAIL: by R201 and R204 a bit over a pixel that was set before both draws clears it in the
first and sets it again in the second, without a collision there. Log entry 12. -/
def Obligations.SecondDrawCollidesForEverySprite : Prop :=
  ∀ (s t u : State) (x y x' y' : Reg) (n : Nibble), n ≠ 0 → s.i.toNat + n.toNat - 1 ≤ 0xFFF →
    exec (.drw x y n) s = .next t → t.getV x' = s.getV x → t.getV y' = s.getV y → exec (.drw x' y' n) t = .next u →
    (u.getV VF = 1 ↔ ∃ row < n.toNat, ∃ col < 8, (s.readByte (indirectAddr s row)).getLsbD (7 - col) = true)

/-! ## Who writes what: rules over all instructions (spec/10_state.md) -/

/-- R20 to R33: the only writers of each part of the state among the instructions: the general registers and STATUS (by a
fault entry alone) among them. (Rests on the spec's own decisions D3, D4, D6 to D10, D14, D22, D35, D40, log entry 11.) -/
def Obligations.EachPartHasItsWriters : Prop :=
  ∀ (i : Instr) (s t : State), exec i s = .next t →
    (t.i ≠ s.i → (∃ nnn, i = .ldIAddr nnn) ∨ (∃ x, i = .addIVx x) ∨ ∃ x, i = .ldFVx x) ∧
    (t.dt ≠ s.dt → ∃ x, i = .ldDTVx x) ∧
    (t.st ≠ s.st → ∃ x, i = .ldSTVx x) ∧
    (t.pc ≠ s.pc → i = .ret ∨ (∃ nnn, i = .jp nnn ∨ i = .jpV0Addr nnn ∨ i = .call nnn) ∨
      (∃ x kk, i = .seVxByte x kk ∨ i = .sneVxByte x kk) ∨ (∃ x y, i = .seVxVy x y ∨ i = .sneVxVy x y) ∨
      ∃ x, i = .skp x ∨ i = .sknp x) ∧
    (t.sp ≠ s.sp → i = .ret ∨ ∃ nnn, i = .call nnn) ∧
    (t.stack ≠ s.stack → ∃ nnn, i = .call nnn) ∧
    (∀ a, t.readByte a ≠ s.readByte a → (∃ x, i = .ldBVx x) ∨ ∃ x, i = .ldATIVx x) ∧
    t.keys = s.keys ∧
    (t.waitk ≠ s.waitk → ∃ x, i = .ldVxK x) ∧
    (t.screen ≠ s.screen → i = .cls ∨ ∃ x y n, i = .drw x y n) ∧
    (t.rngDraws ≠ s.rngDraws → ∃ x kk, i = .rnd x kk) ∧
    t.cycles = s.cycles ∧
    (∀ r : Reg, t.getV r ≠ s.getV r →
      (∃ kk, i = .ldVxByte r kk ∨ i = .addVxByte r kk ∨ i = .rnd r kk) ∨
      (∃ y, i = .ldVxVy r y ∨ i = .or r y ∨ i = .and r y ∨ i = .xor r y ∨ i = .addVxVy r y ∨ i = .sub r y ∨
        i = .subn r y ∨ i = .shr r y ∨ i = .shl r y) ∨
      (∃ x, i = .shr x r ∨ i = .shl x r) ∨
      i = .ldVxDT r ∨ (∃ x, r ≤ x ∧ i = .ldVxATI x) ∨
      (r = VF ∧ ((∃ x y, i = .addVxVy x y ∨ i = .sub x y ∨ i = .subn x y ∨ i = .shr x y ∨ i = .shl x y) ∨
        ∃ x y n, i = .drw x y n))) ∧
    (t.status ≠ s.status → (∃ c, t.status = .faulted c) ∧ onlyChanges [.status] s t ∧
      (i = .ret ∨ (∃ nnn, i = .sys nnn ∨ i = .call nnn) ∨ (∃ x y n, i = .drw x y n) ∨
        ∃ x, i = .skp x ∨ i = .sknp x ∨ i = .ldBVx x ∨ i = .ldATIVx x ∨ i = .ldVxATI x))

/-- R21: VF changes only by one of the six instructions that write it as a flag, or as a named destination. (Rests on
the spec's own decision D11, log entry 11.) -/
def Obligations.FlagRegisterHasItsWriters : Prop :=
  ∀ (i : Instr) (s t : State), exec i s = .next t → t.getV VF ≠ s.getV VF →
    (∃ x y, i = .addVxVy x y ∨ i = .sub x y ∨ i = .subn x y ∨ i = .shr x y ∨ i = .shl x y) ∨
    (∃ x y n, i = .drw x y n) ∨
    (∃ kk, i = .ldVxByte VF kk ∨ i = .addVxByte VF kk ∨ i = .rnd VF kk) ∨
    (∃ y, i = .ldVxVy VF y ∨ i = .or VF y ∨ i = .and VF y ∨ i = .xor VF y) ∨
    i = .ldVxDT VF ∨ i = .ldVxATI VF

/-- R220: each cause Execute raises, with the condition that raises it. (Rests on the spec's own decisions D3, D6, D7,
D8, D9, D10, D34, D37, log entry 11.) -/
def Obligations.FaultCausesHaveTheirConditions : Prop :=
  ∀ (i : Instr) (s t : State) (c : FaultCause), s.status = .running → exec i s = .next t → t.status = .faulted c →
    (c = .sysNotImplemented ∧ ∃ nnn, i = .sys nnn) ∨
    (c = .stackOverflow ∧ s.sp.val = 16 ∧ ∃ nnn, i = .call nnn) ∨
    (c = .stackUnderflow ∧ s.sp.val = 0 ∧ i = .ret) ∨
    (c = .drawHeightZero ∧ ∃ x y, i = .drw x y 0) ∨
    (c = .keyOutOfRange ∧ ∃ x, 15 < (s.getV x).toNat ∧ (i = .skp x ∨ i = .sknp x)) ∨
    (c = .memOutOfBounds ∧
      ((∃ x, i = .ldBVx x ∧ 0xFFF < s.i.toNat + 2) ∨
        (∃ x : Reg, (i = .ldATIVx x ∨ i = .ldVxATI x) ∧ 0xFFF < s.i.toNat + x.val) ∨
        ∃ (x y : Reg) (n : Nibble), i = .drw x y n ∧ n ≠ 0 ∧ 0xFFF < s.i.toNat + n.toNat - 1))

/-- R28, R29: no step writes KEYS, and no step ends a key wait: only the host's key event does. (Rests on the spec's
own decisions D20, D21, D40, log entry 11.) -/
def Obligations.StepsLeaveKeysAndTheKeyWait : Prop :=
  ∀ s t : State, step s = .next t → t.keys = s.keys ∧ (s.waitk ≠ 0 → t.waitk = s.waitk)

/-! ## Reset, the host and the invariant (spec/60_exceptions.md, spec/70_reset_and_hazards.md) -/

/-- R37: every field after construction, the first and every later one. FONT is the parameter `fontRom`. That the count
of draws goes on at a later construction is the model's own choice, log entry 3. (Rests on the spec's own decisions D1,
D18, D34 and D36, log entries 6 and 11.) -/
def Obligations.ResetLeavesTheTable : Prop :=
  (∀ r : Reg, State.reset.getV r = 0) ∧ State.reset.i = 0 ∧ State.reset.dt = 0 ∧ State.reset.st = 0 ∧
  State.reset.pc = 0x200 ∧ State.reset.sp.val = 0 ∧ (∀ k : Fin 16, State.reset.stack[k] = 0) ∧
  fontRom.length = 80 ∧ (∀ (a : Nat) (h : a < fontRom.length), State.reset.readByte a = fontRom[a]) ∧
  (∀ a, 0x050 ≤ a → a ≤ 0xFFF → State.reset.readByte a = 0) ∧
  State.reset.keys = 0 ∧ State.reset.waitk.val = 0 ∧
  (∀ (y : Fin 32) (x : Fin 64), State.reset.screen.pixel y x = false) ∧
  State.reset.cycles = 0 ∧ State.reset.status = .running ∧
  (∀ s : State, onlyChanges [.rng] State.reset (hostConstruct s) ∧ (hostConstruct s).rngDraws = s.rngDraws)

/-- R253: without a ROM the first tick faults with SYS_NOT_IMPLEMENTED. (Rests on the spec's own decisions D1 and D8,
log entries 2 and 11.) -/
def Obligations.FirstTickWithoutARom : Prop := tickFaults State.reset .sysNotImplemented

/-- R130: KeyEvent ends a key wait with the key in the waiting register, has no effect otherwise, and takes only keys
0..15. (Rests on the spec's own decision D21; the refusal of a key above 15 is log entry 8.) -/
def Obligations.KeyEventEndsTheWait : Prop :=
  ∀ (s : State) (k : Nat),
    (k ≤ 15 → s.waitk = 0 → hostKeyEvent k s = .next s) ∧
    (k ≤ 15 → ∀ x : Reg, s.waitk.val = x.val + 1 →
      ∃ t, hostKeyEvent k s = .next t ∧ (t.getV x).toNat = k ∧ t.waitk = 0 ∧ regsKeptBut [x] s t ∧
        onlyChanges [.regs, .waitk] s t) ∧
    (15 < k → hostKeyEvent k s = .refused .keyEventOutOfRange)

/-- R234: LoadRom copies the ROM and nothing else, or fails and leaves the machine unchanged. (Rests on the spec's own
decision D33, log entry 11.) -/
def Obligations.LoadRomCopiesTheRom : Prop :=
  ∀ (s : State) (bytes : List Byte),
    (4096 - 512 < bytes.length → hostLoadRom bytes s = (s, false)) ∧
    (bytes.length ≤ 4096 - 512 →
      (hostLoadRom bytes s).2 = true ∧
      (∀ (j : Nat) (h : j < bytes.length), (hostLoadRom bytes s).1.readByte (0x200 + j) = bytes[j]) ∧
      (∀ a, a < 0x200 ∨ 0x200 + bytes.length ≤ a → (hostLoadRom bytes s).1.readByte a = s.readByte a) ∧
      onlyChanges [.mem] s (hostLoadRom bytes s).1)

/-- R235: what the host's actions may write. (Rests on the spec's own decisions D21, D33, D40, log entry 11.) -/
def Obligations.HostWritesOnlyItsParts : Prop :=
  ∀ s : State,
    (∀ bytes, onlyChanges [.mem] s (hostLoadRom bytes s).1) ∧
    (∀ mask, (hostSetKeys mask s).keys = mask ∧ onlyChanges [.keys] s (hostSetKeys mask s)) ∧
    (∀ k, ∃ rs : List Reg, rs.length ≤ 1 ∧ regsKeptBut rs s (keyEvent k s) ∧
      onlyChanges [.regs, .waitk] s (keyEvent k s))

/-- R25, R38: reset meets the invariant. (Rests on the spec's own decision D1, log entry 11.) -/
def Obligations.ResetMeetsTheInvariant : Prop := State.reset.Inv

/-- R25, R26, R38: from every state that meets it, a step keeps the invariant: memory canonical, PC at most 0x10FE,
every stack slot even and at most 0x1000. (Rests on the spec's own decisions D2, D3, log entry 11.) -/
def Obligations.StepKeepsTheInvariant : Prop := ∀ s t : State, s.Inv → step s = .next t → t.Inv

/-- R38: the invariant holds in every state of every run of ticks and host actions. (Rests on the spec's own decisions
D2, D3, D33, log entry 11; what a move of the host is, is log entry 8.) -/
def Obligations.ReachableStatesMeetTheInvariant : Prop := ∀ s : State, Reachable s → s.Inv

/-- A consequence of the invariant: RET never leads to a misaligned fetch, and what it leaves in PC is at most 0x1000.
(Rests on the spec's own decisions D2, D3, log entry 11.) -/
def Obligations.RetLeavesAnEvenPC : Prop :=
  ∀ s t : State, s.Inv → s.sp.val ≠ 0 → exec .ret s = .next t → t.pc.toNat % 2 = 0 ∧ t.pc.toNat ≤ 0x1000
end

