-- ==== Sys2Proof/Laws/Decode.lean ====
section
/-! SUPPORT. The fields (spec/30_encoding.md R72) of a word put together by one of the formats of R73: what each format
puts in a field is what the codec reads there. -/

namespace Sys2Proof

theorem extract_append_high {m n : Nat} (a : BitVec m) (b : BitVec n) : (a ++ b).extractLsb' n m = a := by
  ext i hi
  simp [BitVec.getElem_extractLsb', BitVec.getLsbD_append, BitVec.getLsbD_eq_getElem, hi]

theorem extract_append_low {m n : Nat} (a : BitVec m) (b : BitVec n) (k l : Nat) (h : k + l ≤ n) :
    (a ++ b).extractLsb' k l = b.extractLsb' k l := by
  ext i hi
  simp only [BitVec.getElem_extractLsb', BitVec.getLsbD_append]
  rw [if_pos (by omega)]

theorem extract_all {n : Nat} (b : BitVec n) : b.extractLsb' 0 n = b := by
  ext i hi
  simp

/-- Adjacent fields of a word, put together again. -/
theorem extract_append_extract {l : Nat} (w : BitVec l) (k m n : Nat) :
    w.extractLsb' (k + n) m ++ w.extractLsb' k n = w.extractLsb' k (m + n) := by
  ext i hi
  rw [BitVec.getElem_append]
  split
  · simp [BitVec.getElem_extractLsb']
  · have : k + n + (i - n) = k + i := by omega
    simp [BitVec.getElem_extractLsb', this]

/-! ## F_ADDR -/

@[simp] theorem fieldGroup_formatAddr (g : Nibble) (a : Addr) : fieldGroup (formatAddr g a) = g := extract_append_high g a

@[simp] theorem fieldAddr_formatAddr (g : Nibble) (a : Addr) : fieldAddr (formatAddr g a) = a :=
  (extract_append_low g a 0 12 (by omega)).trans (extract_all a)

/-! ## F_XKK and F_XSS -/

@[simp] theorem fieldGroup_formatXByte (g : Nibble) (x : Reg) (k : Byte) : fieldGroup (formatXByte g x k) = g :=
  extract_append_high g _

@[simp] theorem fieldX_formatXByte (g : Nibble) (x : Reg) (k : Byte) : fieldX (formatXByte g x k) = x :=
  congrArg BitVec.toFin ((extract_append_low g _ 8 4 (by omega)).trans (extract_append_high (BitVec.ofFin x : BitVec 4) k))

@[simp] theorem fieldLSB_formatXByte (g : Nibble) (x : Reg) (k : Byte) : fieldLSB (formatXByte g x k) = k :=
  ((extract_append_low g _ 0 8 (by omega)).trans (extract_append_low (BitVec.ofFin x : BitVec 4) k 0 8 (by omega))).trans
    (extract_all k)

/-! ## F_XY, F_XYS and F_XYN -/

@[simp] theorem fieldGroup_formatXYNibble (g : Nibble) (x y : Reg) (n : Nibble) :
    fieldGroup (formatXYNibble g x y n) = g := extract_append_high g _

@[simp] theorem fieldX_formatXYNibble (g : Nibble) (x y : Reg) (n : Nibble) : fieldX (formatXYNibble g x y n) = x :=
  congrArg BitVec.toFin ((extract_append_low g _ 8 4 (by omega)).trans (extract_append_high (BitVec.ofFin x : BitVec 4) _))

@[simp] theorem fieldY_formatXYNibble (g : Nibble) (x y : Reg) (n : Nibble) : fieldY (formatXYNibble g x y n) = y :=
  congrArg BitVec.toFin (((extract_append_low g _ 4 4 (by omega)).trans
    (extract_append_low (BitVec.ofFin x : BitVec 4) _ 4 4 (by omega))).trans
      (extract_append_high (BitVec.ofFin y : BitVec 4) n))

@[simp] theorem fieldLSN_formatXYNibble (g : Nibble) (x y : Reg) (n : Nibble) : fieldLSN (formatXYNibble g x y n) = n :=
  (((extract_append_low g _ 0 4 (by omega)).trans (extract_append_low (BitVec.ofFin x : BitVec 4) _ 0 4 (by omega))).trans
    (extract_append_low (BitVec.ofFin y : BitVec 4) n 0 4 (by omega))).trans (extract_all n)

/-! ## Words and bytes -/

/-- The two bytes of a word, put together again (R53, R105). -/
@[simp] theorem wordOfBytes_fields (w : Word) : wordOfBytes (fieldMSB w) (fieldLSB w) = w :=
  (extract_append_extract w 0 8 8).trans (extract_all w)

/-- A word is its group and its address field (view (a) of R72). -/
theorem formatAddr_fields (w : Word) : formatAddr (fieldGroup w) (fieldAddr w) = w :=
  (extract_append_extract w 0 4 12).trans (extract_all w)

/-- The address field is X and the low byte (R72). -/
theorem fieldX_append_fieldLSB (w : Word) : (BitVec.ofFin (fieldX w) ++ fieldLSB w : BitVec 12) = fieldAddr w :=
  extract_append_extract w 0 4 8

/-- The low byte is Y and LSN (R72). -/
theorem fieldY_append_fieldLSN (w : Word) : (BitVec.ofFin (fieldY w) ++ fieldLSN w : BitVec 8) = fieldLSB w :=
  extract_append_extract w 0 4 4

/-- A word is its group, its X and its low byte (views (b) and (c) of R72). -/
theorem formatXByte_fields (w : Word) : formatXByte (fieldGroup w) (fieldX w) (fieldLSB w) = w := by
  unfold formatXByte
  rw [fieldX_append_fieldLSB]
  exact formatAddr_fields w

/-- A word is its four nibbles (view (b) of R72). -/
theorem formatXYNibble_fields (w : Word) : formatXYNibble (fieldGroup w) (fieldX w) (fieldY w) (fieldLSN w) = w := by
  unfold formatXYNibble
  rw [fieldY_append_fieldLSN]
  exact formatXByte_fields w

end Sys2Proof
end

