-- ==== Sys2Proof/Laws/State.lean ====
section
/-! SUPPORT. What each field of the state holds after each named update of Machine/Ops.lean: one lemma per field per
update, true by rfl, so that no proof unfolds a record update; then registers and memory bytes read through an
update. -/

namespace Sys2Proof.Machine.State

variable (s : State)

@[simp] theorem setV_v (x : Reg) (b : Byte) : (s.setV x b).v = s.v.set x.val b x.isLt := rfl
@[simp] theorem setV_i (x : Reg) (b : Byte) : (s.setV x b).i = s.i := rfl
@[simp] theorem setV_dt (x : Reg) (b : Byte) : (s.setV x b).dt = s.dt := rfl
@[simp] theorem setV_st (x : Reg) (b : Byte) : (s.setV x b).st = s.st := rfl
@[simp] theorem setV_pc (x : Reg) (b : Byte) : (s.setV x b).pc = s.pc := rfl
@[simp] theorem setV_sp (x : Reg) (b : Byte) : (s.setV x b).sp = s.sp := rfl
@[simp] theorem setV_stack (x : Reg) (b : Byte) : (s.setV x b).stack = s.stack := rfl
@[simp] theorem setV_mem (x : Reg) (b : Byte) : (s.setV x b).mem = s.mem := rfl
@[simp] theorem setV_keys (x : Reg) (b : Byte) : (s.setV x b).keys = s.keys := rfl
@[simp] theorem setV_waitk (x : Reg) (b : Byte) : (s.setV x b).waitk = s.waitk := rfl
@[simp] theorem setV_screen (x : Reg) (b : Byte) : (s.setV x b).screen = s.screen := rfl
@[simp] theorem setV_rngDraws (x : Reg) (b : Byte) : (s.setV x b).rngDraws = s.rngDraws := rfl
@[simp] theorem setV_cycles (x : Reg) (b : Byte) : (s.setV x b).cycles = s.cycles := rfl
@[simp] theorem setV_status (x : Reg) (b : Byte) : (s.setV x b).status = s.status := rfl

@[simp] theorem setI_v (w : Word) : (s.setI w).v = s.v := rfl
@[simp] theorem setI_i (w : Word) : (s.setI w).i = w := rfl
@[simp] theorem setI_dt (w : Word) : (s.setI w).dt = s.dt := rfl
@[simp] theorem setI_st (w : Word) : (s.setI w).st = s.st := rfl
@[simp] theorem setI_pc (w : Word) : (s.setI w).pc = s.pc := rfl
@[simp] theorem setI_sp (w : Word) : (s.setI w).sp = s.sp := rfl
@[simp] theorem setI_stack (w : Word) : (s.setI w).stack = s.stack := rfl
@[simp] theorem setI_mem (w : Word) : (s.setI w).mem = s.mem := rfl
@[simp] theorem setI_keys (w : Word) : (s.setI w).keys = s.keys := rfl
@[simp] theorem setI_waitk (w : Word) : (s.setI w).waitk = s.waitk := rfl
@[simp] theorem setI_screen (w : Word) : (s.setI w).screen = s.screen := rfl
@[simp] theorem setI_rngDraws (w : Word) : (s.setI w).rngDraws = s.rngDraws := rfl
@[simp] theorem setI_cycles (w : Word) : (s.setI w).cycles = s.cycles := rfl
@[simp] theorem setI_status (w : Word) : (s.setI w).status = s.status := rfl

@[simp] theorem setDT_v (b : Byte) : (s.setDT b).v = s.v := rfl
@[simp] theorem setDT_i (b : Byte) : (s.setDT b).i = s.i := rfl
@[simp] theorem setDT_dt (b : Byte) : (s.setDT b).dt = b := rfl
@[simp] theorem setDT_st (b : Byte) : (s.setDT b).st = s.st := rfl
@[simp] theorem setDT_pc (b : Byte) : (s.setDT b).pc = s.pc := rfl
@[simp] theorem setDT_sp (b : Byte) : (s.setDT b).sp = s.sp := rfl
@[simp] theorem setDT_stack (b : Byte) : (s.setDT b).stack = s.stack := rfl
@[simp] theorem setDT_mem (b : Byte) : (s.setDT b).mem = s.mem := rfl
@[simp] theorem setDT_keys (b : Byte) : (s.setDT b).keys = s.keys := rfl
@[simp] theorem setDT_waitk (b : Byte) : (s.setDT b).waitk = s.waitk := rfl
@[simp] theorem setDT_screen (b : Byte) : (s.setDT b).screen = s.screen := rfl
@[simp] theorem setDT_rngDraws (b : Byte) : (s.setDT b).rngDraws = s.rngDraws := rfl
@[simp] theorem setDT_cycles (b : Byte) : (s.setDT b).cycles = s.cycles := rfl
@[simp] theorem setDT_status (b : Byte) : (s.setDT b).status = s.status := rfl

@[simp] theorem setST_v (b : Byte) : (s.setST b).v = s.v := rfl
@[simp] theorem setST_i (b : Byte) : (s.setST b).i = s.i := rfl
@[simp] theorem setST_dt (b : Byte) : (s.setST b).dt = s.dt := rfl
@[simp] theorem setST_st (b : Byte) : (s.setST b).st = b := rfl
@[simp] theorem setST_pc (b : Byte) : (s.setST b).pc = s.pc := rfl
@[simp] theorem setST_sp (b : Byte) : (s.setST b).sp = s.sp := rfl
@[simp] theorem setST_stack (b : Byte) : (s.setST b).stack = s.stack := rfl
@[simp] theorem setST_mem (b : Byte) : (s.setST b).mem = s.mem := rfl
@[simp] theorem setST_keys (b : Byte) : (s.setST b).keys = s.keys := rfl
@[simp] theorem setST_waitk (b : Byte) : (s.setST b).waitk = s.waitk := rfl
@[simp] theorem setST_screen (b : Byte) : (s.setST b).screen = s.screen := rfl
@[simp] theorem setST_rngDraws (b : Byte) : (s.setST b).rngDraws = s.rngDraws := rfl
@[simp] theorem setST_cycles (b : Byte) : (s.setST b).cycles = s.cycles := rfl
@[simp] theorem setST_status (b : Byte) : (s.setST b).status = s.status := rfl

@[simp] theorem setPC_v (w : Word) : (s.setPC w).v = s.v := rfl
@[simp] theorem setPC_i (w : Word) : (s.setPC w).i = s.i := rfl
@[simp] theorem setPC_dt (w : Word) : (s.setPC w).dt = s.dt := rfl
@[simp] theorem setPC_st (w : Word) : (s.setPC w).st = s.st := rfl
@[simp] theorem setPC_pc (w : Word) : (s.setPC w).pc = w := rfl
@[simp] theorem setPC_sp (w : Word) : (s.setPC w).sp = s.sp := rfl
@[simp] theorem setPC_stack (w : Word) : (s.setPC w).stack = s.stack := rfl
@[simp] theorem setPC_mem (w : Word) : (s.setPC w).mem = s.mem := rfl
@[simp] theorem setPC_keys (w : Word) : (s.setPC w).keys = s.keys := rfl
@[simp] theorem setPC_waitk (w : Word) : (s.setPC w).waitk = s.waitk := rfl
@[simp] theorem setPC_screen (w : Word) : (s.setPC w).screen = s.screen := rfl
@[simp] theorem setPC_rngDraws (w : Word) : (s.setPC w).rngDraws = s.rngDraws := rfl
@[simp] theorem setPC_cycles (w : Word) : (s.setPC w).cycles = s.cycles := rfl
@[simp] theorem setPC_status (w : Word) : (s.setPC w).status = s.status := rfl

@[simp] theorem setStack_v (k : Vector Word 16) (p : Fin 17) : (s.setStack k p).v = s.v := rfl
@[simp] theorem setStack_i (k : Vector Word 16) (p : Fin 17) : (s.setStack k p).i = s.i := rfl
@[simp] theorem setStack_dt (k : Vector Word 16) (p : Fin 17) : (s.setStack k p).dt = s.dt := rfl
@[simp] theorem setStack_st (k : Vector Word 16) (p : Fin 17) : (s.setStack k p).st = s.st := rfl
@[simp] theorem setStack_pc (k : Vector Word 16) (p : Fin 17) : (s.setStack k p).pc = s.pc := rfl
@[simp] theorem setStack_sp (k : Vector Word 16) (p : Fin 17) : (s.setStack k p).sp = p := rfl
@[simp] theorem setStack_stack (k : Vector Word 16) (p : Fin 17) : (s.setStack k p).stack = k := rfl
@[simp] theorem setStack_mem (k : Vector Word 16) (p : Fin 17) : (s.setStack k p).mem = s.mem := rfl
@[simp] theorem setStack_keys (k : Vector Word 16) (p : Fin 17) : (s.setStack k p).keys = s.keys := rfl
@[simp] theorem setStack_waitk (k : Vector Word 16) (p : Fin 17) : (s.setStack k p).waitk = s.waitk := rfl
@[simp] theorem setStack_screen (k : Vector Word 16) (p : Fin 17) : (s.setStack k p).screen = s.screen := rfl
@[simp] theorem setStack_rngDraws (k : Vector Word 16) (p : Fin 17) : (s.setStack k p).rngDraws = s.rngDraws := rfl
@[simp] theorem setStack_cycles (k : Vector Word 16) (p : Fin 17) : (s.setStack k p).cycles = s.cycles := rfl
@[simp] theorem setStack_status (k : Vector Word 16) (p : Fin 17) : (s.setStack k p).status = s.status := rfl

@[simp] theorem setMem_v (m : Memory) : (s.setMem m).v = s.v := rfl
@[simp] theorem setMem_i (m : Memory) : (s.setMem m).i = s.i := rfl
@[simp] theorem setMem_dt (m : Memory) : (s.setMem m).dt = s.dt := rfl
@[simp] theorem setMem_st (m : Memory) : (s.setMem m).st = s.st := rfl
@[simp] theorem setMem_pc (m : Memory) : (s.setMem m).pc = s.pc := rfl
@[simp] theorem setMem_sp (m : Memory) : (s.setMem m).sp = s.sp := rfl
@[simp] theorem setMem_stack (m : Memory) : (s.setMem m).stack = s.stack := rfl
@[simp] theorem setMem_mem (m : Memory) : (s.setMem m).mem = m := rfl
@[simp] theorem setMem_keys (m : Memory) : (s.setMem m).keys = s.keys := rfl
@[simp] theorem setMem_waitk (m : Memory) : (s.setMem m).waitk = s.waitk := rfl
@[simp] theorem setMem_screen (m : Memory) : (s.setMem m).screen = s.screen := rfl
@[simp] theorem setMem_rngDraws (m : Memory) : (s.setMem m).rngDraws = s.rngDraws := rfl
@[simp] theorem setMem_cycles (m : Memory) : (s.setMem m).cycles = s.cycles := rfl
@[simp] theorem setMem_status (m : Memory) : (s.setMem m).status = s.status := rfl

@[simp] theorem setKeys_v (w : Word) : (s.setKeys w).v = s.v := rfl
@[simp] theorem setKeys_i (w : Word) : (s.setKeys w).i = s.i := rfl
@[simp] theorem setKeys_dt (w : Word) : (s.setKeys w).dt = s.dt := rfl
@[simp] theorem setKeys_st (w : Word) : (s.setKeys w).st = s.st := rfl
@[simp] theorem setKeys_pc (w : Word) : (s.setKeys w).pc = s.pc := rfl
@[simp] theorem setKeys_sp (w : Word) : (s.setKeys w).sp = s.sp := rfl
@[simp] theorem setKeys_stack (w : Word) : (s.setKeys w).stack = s.stack := rfl
@[simp] theorem setKeys_mem (w : Word) : (s.setKeys w).mem = s.mem := rfl
@[simp] theorem setKeys_keys (w : Word) : (s.setKeys w).keys = w := rfl
@[simp] theorem setKeys_waitk (w : Word) : (s.setKeys w).waitk = s.waitk := rfl
@[simp] theorem setKeys_screen (w : Word) : (s.setKeys w).screen = s.screen := rfl
@[simp] theorem setKeys_rngDraws (w : Word) : (s.setKeys w).rngDraws = s.rngDraws := rfl
@[simp] theorem setKeys_cycles (w : Word) : (s.setKeys w).cycles = s.cycles := rfl
@[simp] theorem setKeys_status (w : Word) : (s.setKeys w).status = s.status := rfl

@[simp] theorem setWaitk_v (k : Fin 17) : (s.setWaitk k).v = s.v := rfl
@[simp] theorem setWaitk_i (k : Fin 17) : (s.setWaitk k).i = s.i := rfl
@[simp] theorem setWaitk_dt (k : Fin 17) : (s.setWaitk k).dt = s.dt := rfl
@[simp] theorem setWaitk_st (k : Fin 17) : (s.setWaitk k).st = s.st := rfl
@[simp] theorem setWaitk_pc (k : Fin 17) : (s.setWaitk k).pc = s.pc := rfl
@[simp] theorem setWaitk_sp (k : Fin 17) : (s.setWaitk k).sp = s.sp := rfl
@[simp] theorem setWaitk_stack (k : Fin 17) : (s.setWaitk k).stack = s.stack := rfl
@[simp] theorem setWaitk_mem (k : Fin 17) : (s.setWaitk k).mem = s.mem := rfl
@[simp] theorem setWaitk_keys (k : Fin 17) : (s.setWaitk k).keys = s.keys := rfl
@[simp] theorem setWaitk_waitk (k : Fin 17) : (s.setWaitk k).waitk = k := rfl
@[simp] theorem setWaitk_screen (k : Fin 17) : (s.setWaitk k).screen = s.screen := rfl
@[simp] theorem setWaitk_rngDraws (k : Fin 17) : (s.setWaitk k).rngDraws = s.rngDraws := rfl
@[simp] theorem setWaitk_cycles (k : Fin 17) : (s.setWaitk k).cycles = s.cycles := rfl
@[simp] theorem setWaitk_status (k : Fin 17) : (s.setWaitk k).status = s.status := rfl

@[simp] theorem setScreen_v (scr : Screen) : (s.setScreen scr).v = s.v := rfl
@[simp] theorem setScreen_i (scr : Screen) : (s.setScreen scr).i = s.i := rfl
@[simp] theorem setScreen_dt (scr : Screen) : (s.setScreen scr).dt = s.dt := rfl
@[simp] theorem setScreen_st (scr : Screen) : (s.setScreen scr).st = s.st := rfl
@[simp] theorem setScreen_pc (scr : Screen) : (s.setScreen scr).pc = s.pc := rfl
@[simp] theorem setScreen_sp (scr : Screen) : (s.setScreen scr).sp = s.sp := rfl
@[simp] theorem setScreen_stack (scr : Screen) : (s.setScreen scr).stack = s.stack := rfl
@[simp] theorem setScreen_mem (scr : Screen) : (s.setScreen scr).mem = s.mem := rfl
@[simp] theorem setScreen_keys (scr : Screen) : (s.setScreen scr).keys = s.keys := rfl
@[simp] theorem setScreen_waitk (scr : Screen) : (s.setScreen scr).waitk = s.waitk := rfl
@[simp] theorem setScreen_screen (scr : Screen) : (s.setScreen scr).screen = scr := rfl
@[simp] theorem setScreen_rngDraws (scr : Screen) : (s.setScreen scr).rngDraws = s.rngDraws := rfl
@[simp] theorem setScreen_cycles (scr : Screen) : (s.setScreen scr).cycles = s.cycles := rfl
@[simp] theorem setScreen_status (scr : Screen) : (s.setScreen scr).status = s.status := rfl

@[simp] theorem setDraws_v (n : Nat) : (s.setDraws n).v = s.v := rfl
@[simp] theorem setDraws_i (n : Nat) : (s.setDraws n).i = s.i := rfl
@[simp] theorem setDraws_dt (n : Nat) : (s.setDraws n).dt = s.dt := rfl
@[simp] theorem setDraws_st (n : Nat) : (s.setDraws n).st = s.st := rfl
@[simp] theorem setDraws_pc (n : Nat) : (s.setDraws n).pc = s.pc := rfl
@[simp] theorem setDraws_sp (n : Nat) : (s.setDraws n).sp = s.sp := rfl
@[simp] theorem setDraws_stack (n : Nat) : (s.setDraws n).stack = s.stack := rfl
@[simp] theorem setDraws_mem (n : Nat) : (s.setDraws n).mem = s.mem := rfl
@[simp] theorem setDraws_keys (n : Nat) : (s.setDraws n).keys = s.keys := rfl
@[simp] theorem setDraws_waitk (n : Nat) : (s.setDraws n).waitk = s.waitk := rfl
@[simp] theorem setDraws_screen (n : Nat) : (s.setDraws n).screen = s.screen := rfl
@[simp] theorem setDraws_rngDraws (n : Nat) : (s.setDraws n).rngDraws = n := rfl
@[simp] theorem setDraws_cycles (n : Nat) : (s.setDraws n).cycles = s.cycles := rfl
@[simp] theorem setDraws_status (n : Nat) : (s.setDraws n).status = s.status := rfl

@[simp] theorem setCycles_v (n : Nat) : (s.setCycles n).v = s.v := rfl
@[simp] theorem setCycles_i (n : Nat) : (s.setCycles n).i = s.i := rfl
@[simp] theorem setCycles_dt (n : Nat) : (s.setCycles n).dt = s.dt := rfl
@[simp] theorem setCycles_st (n : Nat) : (s.setCycles n).st = s.st := rfl
@[simp] theorem setCycles_pc (n : Nat) : (s.setCycles n).pc = s.pc := rfl
@[simp] theorem setCycles_sp (n : Nat) : (s.setCycles n).sp = s.sp := rfl
@[simp] theorem setCycles_stack (n : Nat) : (s.setCycles n).stack = s.stack := rfl
@[simp] theorem setCycles_mem (n : Nat) : (s.setCycles n).mem = s.mem := rfl
@[simp] theorem setCycles_keys (n : Nat) : (s.setCycles n).keys = s.keys := rfl
@[simp] theorem setCycles_waitk (n : Nat) : (s.setCycles n).waitk = s.waitk := rfl
@[simp] theorem setCycles_screen (n : Nat) : (s.setCycles n).screen = s.screen := rfl
@[simp] theorem setCycles_rngDraws (n : Nat) : (s.setCycles n).rngDraws = s.rngDraws := rfl
@[simp] theorem setCycles_cycles (n : Nat) : (s.setCycles n).cycles = n := rfl
@[simp] theorem setCycles_status (n : Nat) : (s.setCycles n).status = s.status := rfl

@[simp] theorem setStatus_v (q : Status) : (s.setStatus q).v = s.v := rfl
@[simp] theorem setStatus_i (q : Status) : (s.setStatus q).i = s.i := rfl
@[simp] theorem setStatus_dt (q : Status) : (s.setStatus q).dt = s.dt := rfl
@[simp] theorem setStatus_st (q : Status) : (s.setStatus q).st = s.st := rfl
@[simp] theorem setStatus_pc (q : Status) : (s.setStatus q).pc = s.pc := rfl
@[simp] theorem setStatus_sp (q : Status) : (s.setStatus q).sp = s.sp := rfl
@[simp] theorem setStatus_stack (q : Status) : (s.setStatus q).stack = s.stack := rfl
@[simp] theorem setStatus_mem (q : Status) : (s.setStatus q).mem = s.mem := rfl
@[simp] theorem setStatus_keys (q : Status) : (s.setStatus q).keys = s.keys := rfl
@[simp] theorem setStatus_waitk (q : Status) : (s.setStatus q).waitk = s.waitk := rfl
@[simp] theorem setStatus_screen (q : Status) : (s.setStatus q).screen = s.screen := rfl
@[simp] theorem setStatus_rngDraws (q : Status) : (s.setStatus q).rngDraws = s.rngDraws := rfl
@[simp] theorem setStatus_cycles (q : Status) : (s.setStatus q).cycles = s.cycles := rfl
@[simp] theorem setStatus_status (q : Status) : (s.setStatus q).status = q := rfl

@[simp] theorem loadRegs_i (a : Nat) (x : Reg) : (s.loadRegs a x).i = s.i := rfl
@[simp] theorem loadRegs_dt (a : Nat) (x : Reg) : (s.loadRegs a x).dt = s.dt := rfl
@[simp] theorem loadRegs_st (a : Nat) (x : Reg) : (s.loadRegs a x).st = s.st := rfl
@[simp] theorem loadRegs_pc (a : Nat) (x : Reg) : (s.loadRegs a x).pc = s.pc := rfl
@[simp] theorem loadRegs_sp (a : Nat) (x : Reg) : (s.loadRegs a x).sp = s.sp := rfl
@[simp] theorem loadRegs_stack (a : Nat) (x : Reg) : (s.loadRegs a x).stack = s.stack := rfl
@[simp] theorem loadRegs_mem (a : Nat) (x : Reg) : (s.loadRegs a x).mem = s.mem := rfl
@[simp] theorem loadRegs_keys (a : Nat) (x : Reg) : (s.loadRegs a x).keys = s.keys := rfl
@[simp] theorem loadRegs_waitk (a : Nat) (x : Reg) : (s.loadRegs a x).waitk = s.waitk := rfl
@[simp] theorem loadRegs_screen (a : Nat) (x : Reg) : (s.loadRegs a x).screen = s.screen := rfl
@[simp] theorem loadRegs_rngDraws (a : Nat) (x : Reg) : (s.loadRegs a x).rngDraws = s.rngDraws := rfl
@[simp] theorem loadRegs_cycles (a : Nat) (x : Reg) : (s.loadRegs a x).cycles = s.cycles := rfl
@[simp] theorem loadRegs_status (a : Nat) (x : Reg) : (s.loadRegs a x).status = s.status := rfl

/-! ## Registers through an update -/

/-- A register read after a register write (R20): the written register and no other. -/
@[simp] theorem getV_setV (x y : Reg) (b : Byte) : (s.setV x b).getV y = if y = x then b else s.getV y := by
  simp only [getV, setV]
  by_cases h : y = x
  · subst h; simp
  · rw [if_neg h]
    exact Vector.getElem_set_ne _ _ (fun e => h (Fin.ext e.symm))

/-- A register read after `loadRegs` (R170): V0..Vx come from memory. -/
@[simp] theorem getV_loadRegs (a : Nat) (x y : Reg) :
    (s.loadRegs a x).getV y = if y.val ≤ x.val then s.readByte (a + y.val) else s.getV y := by
  simp [getV, loadRegs]
@[simp] theorem getV_setI (w : Word) (y : Reg) : (s.setI w).getV y = s.getV y := rfl
@[simp] theorem getV_setDT (b : Byte) (y : Reg) : (s.setDT b).getV y = s.getV y := rfl
@[simp] theorem getV_setST (b : Byte) (y : Reg) : (s.setST b).getV y = s.getV y := rfl
@[simp] theorem getV_setPC (w : Word) (y : Reg) : (s.setPC w).getV y = s.getV y := rfl
@[simp] theorem getV_setStack (k : Vector Word 16) (p : Fin 17) (y : Reg) : (s.setStack k p).getV y = s.getV y := rfl
@[simp] theorem getV_setMem (m : Memory) (y : Reg) : (s.setMem m).getV y = s.getV y := rfl
@[simp] theorem getV_setKeys (w : Word) (y : Reg) : (s.setKeys w).getV y = s.getV y := rfl
@[simp] theorem getV_setWaitk (k : Fin 17) (y : Reg) : (s.setWaitk k).getV y = s.getV y := rfl
@[simp] theorem getV_setScreen (scr : Screen) (y : Reg) : (s.setScreen scr).getV y = s.getV y := rfl
@[simp] theorem getV_setDraws (n : Nat) (y : Reg) : (s.setDraws n).getV y = s.getV y := rfl
@[simp] theorem getV_setCycles (n : Nat) (y : Reg) : (s.setCycles n).getV y = s.getV y := rfl
@[simp] theorem getV_setStatus (q : Status) (y : Reg) : (s.setStatus q).getV y = s.getV y := rfl

/-! ## Memory bytes through an update -/

@[simp] theorem readByte_setV (x : Reg) (b : Byte) (c : Nat) : (s.setV x b).readByte c = s.readByte c := rfl
@[simp] theorem readByte_setI (w : Word) (c : Nat) : (s.setI w).readByte c = s.readByte c := rfl
@[simp] theorem readByte_setDT (b : Byte) (c : Nat) : (s.setDT b).readByte c = s.readByte c := rfl
@[simp] theorem readByte_setST (b : Byte) (c : Nat) : (s.setST b).readByte c = s.readByte c := rfl
@[simp] theorem readByte_setPC (w : Word) (c : Nat) : (s.setPC w).readByte c = s.readByte c := rfl
@[simp] theorem readByte_setStack (k : Vector Word 16) (p : Fin 17) (c : Nat) : (s.setStack k p).readByte c = s.readByte c := rfl
@[simp] theorem readByte_setMem (m : Memory) (c : Nat) : (s.setMem m).readByte c = m.read c := rfl
@[simp] theorem readByte_setKeys (w : Word) (c : Nat) : (s.setKeys w).readByte c = s.readByte c := rfl
@[simp] theorem readByte_setWaitk (k : Fin 17) (c : Nat) : (s.setWaitk k).readByte c = s.readByte c := rfl
@[simp] theorem readByte_setScreen (scr : Screen) (c : Nat) : (s.setScreen scr).readByte c = s.readByte c := rfl
@[simp] theorem readByte_setDraws (n : Nat) (c : Nat) : (s.setDraws n).readByte c = s.readByte c := rfl
@[simp] theorem readByte_setCycles (n : Nat) (c : Nat) : (s.setCycles n).readByte c = s.readByte c := rfl
@[simp] theorem readByte_setStatus (q : Status) (c : Nat) : (s.setStatus q).readByte c = s.readByte c := rfl
@[simp] theorem readByte_loadRegs (a : Nat) (x : Reg) (c : Nat) : (s.loadRegs a x).readByte c = s.readByte c := rfl

/-- Two states are the same when every field is. -/
@[ext] theorem ext_fields {s t : State} (hv : s.v = t.v) (hi : s.i = t.i) (hdt : s.dt = t.dt) (hst : s.st = t.st)
    (hpc : s.pc = t.pc) (hsp : s.sp = t.sp) (hstack : s.stack = t.stack) (hmem : s.mem = t.mem) (hkeys : s.keys = t.keys)
    (hwaitk : s.waitk = t.waitk) (hscreen : s.screen = t.screen) (hdraws : s.rngDraws = t.rngDraws)
    (hcycles : s.cycles = t.cycles) (hstatus : s.status = t.status) : s = t := by
  cases s; cases t; simp_all

end Sys2Proof.Machine.State
end

