-- ==== Sys2Proof/Laws/Memory.lean ====
section
/-! SUPPORT. Laws of memory (spec/20_memory.md): a read after a write, for every memory; and the canonical form, kept by
every operation. -/

namespace Sys2Proof.Machine.Memory

/-! ## Reading after writing (R59) -/

theorem read_erase (m : Memory) (a c : Nat) : (m.erase a).read c = if c = a then initialByte a else m.read c := by
  induction m with
  | nil => simp only [erase, List.filter_nil, read]; split <;> simp_all
  | cons e rest ih =>
    obtain ⟨k, b⟩ := e
    simp only [erase] at ih ⊢
    by_cases hk : k = a
    · subst hk
      rw [List.filter_cons_of_neg (by simp), ih]
      simp only [read]
      split <;> simp_all
    · rw [List.filter_cons_of_pos (by simpa using hk)]
      simp only [read, ih]
      split <;> split <;> simp_all

theorem read_place (m : Memory) (a c : Nat) (b : Byte) (h : ∀ e ∈ m, e.1 ≠ a) :
    (m.place a b).read c = if c = a then b else m.read c := by
  induction m with
  | nil => simp [place, read]
  | cons e rest ih =>
    obtain ⟨k, d⟩ := e
    have hk : k ≠ a := h (k, d) (by simp)
    have ih := ih fun e he => h e (by simp [he])
    simp only [place]
    split
    · simp [read]
    · simp only [read, ih]
      split <;> split <;> simp_all

theorem erase_ne (m : Memory) (a : Nat) : ∀ e ∈ m.erase a, e.1 ≠ a := by
  intro e he
  simpa using (List.mem_filter.mp he).2

/-- A byte read after a byte is written (R59): the written byte there, every other byte as before. -/
@[simp] theorem read_write (m : Memory) (a c : Nat) (b : Byte) :
    (m.write a b).read c = if c = a then b else m.read c := by
  unfold write
  split
  · rename_i hb; subst hb; exact read_erase m a c
  · rw [read_place _ _ _ _ (erase_ne m a), read_erase]
    split <;> rfl

/-- A byte read after a block is written: byte `c - a` of the block inside it, as before outside it. -/
theorem read_writeBytes (bytes : List Byte) (m : Memory) (a c : Nat) :
    (m.writeBytes a bytes).read c = if h : a ≤ c ∧ c - a < bytes.length then bytes[c - a]'h.2 else m.read c := by
  induction bytes generalizing m a with
  | nil => simp [writeBytes]
  | cons b rest ih =>
    simp only [writeBytes, ih, read_write]
    by_cases h1 : c = a
    · subst h1; simp
    · by_cases h2 : a + 1 ≤ c ∧ c - (a + 1) < rest.length
      · obtain ⟨k, rfl⟩ : ∃ k, c = a + 1 + k := ⟨c - (a + 1), by omega⟩
        have e : a + 1 + k - a = k + 1 := by omega
        have h3 : a ≤ a + 1 + k ∧ a + 1 + k - a < (b :: rest).length := by simp at h2 ⊢; omega
        rw [dif_pos h2, dif_pos h3]
        simp [e]
      · rw [dif_neg h2, if_neg h1, dif_neg]
        simp; omega

/-- Outside the written block every byte reads as before. -/
theorem read_writeBytes_outside (bytes : List Byte) (m : Memory) (a c : Nat) (h : c < a ∨ a + bytes.length ≤ c) :
    (m.writeBytes a bytes).read c = m.read c := by
  rw [read_writeBytes, dif_neg (by omega)]

/-- Byte `k` of the written block. -/
theorem read_writeBytes_inside (bytes : List Byte) (m : Memory) (a k : Nat) (h : k < bytes.length) :
    (m.writeBytes a bytes).read (a + k) = bytes[k] := by
  rw [read_writeBytes, dif_pos (by omega)]
  simp

/-! ## The canonical form -/

theorem wfFrom_mono {m : Memory} {lo lo' : Nat} (h : lo' ≤ lo) (hm : wfFrom lo m = true) : wfFrom lo' m = true := by
  cases m with
  | nil => rfl
  | cons e rest => obtain ⟨k, c⟩ := e; simp only [wfFrom, Bool.and_eq_true, decide_eq_true_eq] at hm ⊢; exact ⟨⟨⟨by omega, hm.1.1.2⟩, hm.1.2⟩, hm.2⟩

theorem wfFrom_erase {m : Memory} {lo : Nat} (a : Nat) (hm : wfFrom lo m = true) : wfFrom lo (m.erase a) = true := by
  induction m generalizing lo with
  | nil => rfl
  | cons e rest ih =>
    obtain ⟨k, c⟩ := e
    simp only [wfFrom, Bool.and_eq_true, decide_eq_true_eq] at hm
    simp only [erase] at ih ⊢
    by_cases hk : k = a
    · rw [List.filter_cons_of_neg (by simpa using hk)]
      exact wfFrom_mono (by omega) (ih hm.2)
    · rw [List.filter_cons_of_pos (by simpa using hk)]
      simp only [wfFrom, Bool.and_eq_true, decide_eq_true_eq]
      exact ⟨hm.1, ih hm.2⟩

theorem wfFrom_place {m : Memory} {lo a : Nat} {b : Byte} (hm : wfFrom lo m = true) (hlo : lo ≤ a) (ha : a < memSize)
    (hb : b ≠ initialByte a) (hne : ∀ e ∈ m, e.1 ≠ a) : wfFrom lo (m.place a b) = true := by
  induction m generalizing lo with
  | nil => simp [place, wfFrom, hlo, ha, hb]
  | cons e rest ih =>
    obtain ⟨k, c⟩ := e
    have hk : k ≠ a := hne (k, c) (by simp)
    simp only [wfFrom, Bool.and_eq_true, decide_eq_true_eq] at hm
    simp only [place]
    split
    · simp only [wfFrom, Bool.and_eq_true, decide_eq_true_eq]
      exact ⟨⟨⟨hlo, ha⟩, hb⟩, ⟨⟨by omega, hm.1.1.2⟩, hm.1.2⟩, hm.2⟩
    · simp only [wfFrom, Bool.and_eq_true, decide_eq_true_eq]
      exact ⟨hm.1, ih hm.2 (by omega) fun e he => hne e (by simp [he])⟩

/-- A write inside the space keeps the canonical form. -/
theorem wf_write {m : Memory} {a : Nat} (b : Byte) (hm : m.wf = true) (ha : a < memSize) : (m.write a b).wf = true := by
  unfold write
  split
  · exact wfFrom_erase a hm
  · exact wfFrom_place (wfFrom_erase a hm) (Nat.zero_le a) ha ‹_› (erase_ne m a)

/-- A block write inside the space keeps the canonical form. -/
theorem wf_writeBytes {bytes : List Byte} {m : Memory} {a : Nat} (hm : m.wf = true) (ha : a + bytes.length ≤ memSize) :
    (m.writeBytes a bytes).wf = true := by
  induction bytes generalizing m a with
  | nil => exact hm
  | cons b rest ih =>
    simp only [List.length_cons] at ha
    exact ih (wf_write b hm (by omega)) (by omega)

/-- Reset memory, with nothing listed, is in canonical form. -/
theorem wf_reset : State.reset.mem.wf = true := rfl

/-- In canonical form every listed address is at least the bound. -/
theorem le_of_mem_wfFrom {m : Memory} {lo : Nat} (hm : wfFrom lo m = true) : ∀ e ∈ m, lo ≤ e.1 := by
  induction m generalizing lo with
  | nil => simp
  | cons e rest ih =>
    obtain ⟨k, c⟩ := e
    simp only [wfFrom, Bool.and_eq_true, decide_eq_true_eq] at hm
    intro f hf
    rcases List.mem_cons.mp hf with rfl | hf
    · exact hm.1.1.1
    · have := ih hm.2 f hf; omega

theorem read_below {m : Memory} {lo a : Nat} (hm : wfFrom lo m = true) (ha : a < lo) : m.read a = initialByte a := by
  induction m generalizing lo with
  | nil => rfl
  | cons e rest ih =>
    obtain ⟨k, c⟩ := e
    simp only [wfFrom, Bool.and_eq_true, decide_eq_true_eq] at hm
    simp only [read]
    rw [if_neg (by omega)]
    exact ih hm.2 (by omega)

theorem eq_of_read_eq_from {m n : Memory} {lo : Nat} (hm : wfFrom lo m = true) (hn : wfFrom lo n = true)
    (h : ∀ a, m.read a = n.read a) : m = n := by
  induction m generalizing n lo with
  | nil =>
    cases n with
    | nil => rfl
    | cons e rest =>
      obtain ⟨k, c⟩ := e
      simp only [wfFrom, Bool.and_eq_true, decide_eq_true_eq] at hn
      have := h k
      simp only [read, if_true] at this
      exact absurd this.symm hn.1.2
  | cons e rest ih =>
    obtain ⟨k, c⟩ := e
    simp only [wfFrom, Bool.and_eq_true, decide_eq_true_eq] at hm
    cases n with
    | nil =>
      have := h k
      simp only [read, if_true] at this
      exact absurd this hm.1.2
    | cons f rest' =>
      obtain ⟨l, d⟩ := f
      simp only [wfFrom, Bool.and_eq_true, decide_eq_true_eq] at hn
      have hkl : k = l := by
        rcases Nat.lt_trichotomy k l with hlt | heq | hgt
        · have := h k
          simp only [read, if_true, if_neg (Nat.ne_of_lt hlt)] at this
          rw [read_below hn.2 (by omega)] at this
          exact absurd this hm.1.2
        · exact heq
        · have := h l
          simp only [read, if_true, if_neg (Nat.ne_of_lt hgt)] at this
          rw [read_below hm.2 (by omega)] at this
          exact absurd this.symm hn.1.2
      subst hkl
      have hcd : c = d := by simpa [read] using h k
      subst hcd
      congr 1
      refine ih hm.2 hn.2 fun a => ?_
      by_cases hak : a = k
      · subst hak; rw [read_below hm.2 (by omega), read_below hn.2 (by omega)]
      · simpa [read, hak] using h a

/-- The canonical form is canonical: memories that read the same everywhere are the same data. -/
theorem eq_of_read_eq {m n : Memory} (hm : m.wf = true) (hn : n.wf = true) (h : ∀ a, m.read a = n.read a) : m = n :=
  eq_of_read_eq_from hm hn h

end Sys2Proof.Machine.Memory
end

