-- ==== Sys2Proof/Laws/Ops.lean ====
section
/-! SUPPORT. One lemma per shared operation that says once everything it can do, the equation of each meaning, and the
inversion of Execute: a rule either leaves STATUS alone or is exactly a fault entry. -/

namespace Sys2Proof.Machine

/-! ## Stack, skip, stores, keys -/

/-- CALL's push (R26, R145): the two cases. -/
theorem push_cases (s : State) (w : Word) :
    (∃ h : s.sp.val < 16, push s w = .ok (s.setStack (s.stack.set s.sp.val w h) ⟨s.sp.val + 1, Nat.succ_lt_succ h⟩)) ∨
      (s.sp.val = 16 ∧ push s w = .error .stackOverflow) := by
  unfold push
  by_cases h : s.sp.val < 16
  · exact .inl ⟨h, by rw [dif_pos h]⟩
  · exact .inr ⟨by have := s.sp.isLt; omega, by rw [dif_neg h]⟩

/-- RET's pop (R26, R142): the two cases. -/
theorem pop_cases (s : State) :
    (∃ (k : Nat) (h : k < 16), s.sp.val = k + 1 ∧
        pop s = .ok (s.stack[k], s.setStack s.stack ⟨k, Nat.lt_succ_of_lt h⟩)) ∨
      (s.sp.val = 0 ∧ pop s = .error .stackUnderflow) := by
  unfold pop
  by_cases h : 0 < s.sp.val
  · have := s.sp.isLt
    exact .inl ⟨s.sp.val - 1, by omega, by omega, by rw [dif_pos h]⟩
  · exact .inr ⟨by omega, by rw [dif_neg h]⟩

/-- A skip changes at most PC (R140). -/
theorem skipIf_eq (s : State) (c : Bool) : skipIf s c = s.setPC (if c then s.pc + 2 else s.pc) := by
  cases c <;> rfl

/-- A block store (R55): everything written, or nothing and MEM_OUT_OF_BOUNDS. -/
theorem storeBytes_cases (s : State) (a : Nat) (bytes : List Byte) :
    (a + bytes.length ≤ memSize ∧ storeBytes s a bytes = .ok (s.setMem (s.mem.writeBytes a bytes))) ∨
      (memSize < a + bytes.length ∧ storeBytes s a bytes = .error .memOutOfBounds) := by
  unfold storeBytes inBounds
  by_cases h : a + bytes.length ≤ memSize
  · exact .inl ⟨h, by simp [h]⟩
  · exact .inr ⟨by omega, by simp [h]⟩

/-- The key test (R150, R151): the key's bit, or KEY_OUT_OF_RANGE. -/
theorem keyDown_cases (s : State) (x : Reg) :
    ((s.getV x).toNat ≤ 15 ∧ keyDown s x = .ok (s.keys.getLsbD (s.getV x).toNat)) ∨
      (15 < (s.getV x).toNat ∧ keyDown s x = .error .keyOutOfRange) := by
  unfold keyDown
  by_cases h : (s.getV x).toNat > 15
  · exact .inr ⟨h, by rw [if_pos h]⟩
  · exact .inl ⟨by omega, by rw [if_neg h]⟩

@[simp] theorem length_bcdDigits (b : Byte) : (bcdDigits b).length = 3 := rfl

@[simp] theorem length_regsUpTo (s : State) (x : Reg) : (regsUpTo s x).length = x.val + 1 := by
  have := x.isLt
  simp [regsUpTo]

/-- Byte r of the registers stored by LD [I], Vx is V[r] (R169). -/
theorem getElem_regsUpTo (s : State) (x : Reg) (r : Nat) (h : r < (regsUpTo s x).length) :
    (regsUpTo s x)[r] = s.getV ⟨r, by have := x.isLt; simp at h; omega⟩ := by
  simp [regsUpTo, State.getV]

/-! ## The screen -/

/-- A pixel read after a pixel is written (R30). -/
@[simp] theorem pixel_setPixel (scr : Screen) (y y' : Fin 32) (x x' : Fin 64) (b : Bool) :
    (scr.setPixel y x b).pixel y' x' = if y' = y ∧ x' = x then b else scr.pixel y' x' := by
  unfold Screen.setPixel Screen.pixel
  simp only [Fin.getElem_fin, Vector.getElem_set]
  by_cases hy : y' = y
  · subst hy
    by_cases hx : x' = x
    · subst hx; simp
    · have : ¬ x.val = x'.val := fun e => hx (Fin.ext e.symm)
      simp [this, hx]
  · have : ¬ y.val = y'.val := fun e => hy (Fin.ext e.symm)
    simp [this, hy]

@[simp] theorem pixel_clear (y : Fin 32) (x : Fin 64) : Screen.clear.pixel y x = false := by
  simp [Screen.pixel, Screen.clear]

/-! ## The tick around Execute -/

/-- The word the fetch reads from two memory bytes, most significant first (R53). -/
theorem bigEndian_two (hi lo : Byte) : BitVec.ofNat 16 (bigEndian [hi, lo]) = hi ++ lo := by
  apply BitVec.eq_of_toNat_eq
  have h1 := hi.isLt
  have h2 := lo.isLt
  simp only [bigEndian, List.foldl, BitVec.toNat_ofNat, BitVec.toNat_append, Nat.zero_mul, Nat.zero_add]
  rw [Nat.mod_eq_of_lt (by omega), Nat.shiftLeft_eq, Nat.mul_comm, ← Nat.two_pow_add_eq_or_of_lt (i := 8) h2]

/-- The fetch from a PC that can be fetched from (R121). -/
theorem fetchWord_ok (s : State) (he : s.pc.toNat % 2 = 0) (hb : s.pc.toNat ≤ 0xFFE) :
    fetchWord s = .ok (wordOfBytes (s.readByte s.pc.toNat) (s.readByte (s.pc.toNat + 1))) := by
  have h1 : ¬ s.pc.toNat % 2 = 1 := by omega
  have h2 : ¬ s.pc.toNat > 0xFFE := by omega
  have h3 : s.pc.toNat + 2 ≤ memSize := by unfold memSize; omega
  have hr : s.mem.readBytes s.pc.toNat 2 = [s.readByte s.pc.toNat, s.readByte (s.pc.toNat + 1)] := rfl
  unfold fetchWord memRead
  rw [if_neg h1, if_neg h2, hr]
  simp only [inBounds, h3, decide_true, if_true, bigEndian_two]
  rfl

/-- A RUNNING machine that waits for no key (R120). -/
theorem step_of_running {s : State} (hs : s.status = .running) (hw : s.waitk = 0) :
    step s = match fetchInstr s with
      | .ok i => endTick s (exec i (advancePC s))
      | .error c => raiseFault s c := by
  unfold step
  rw [hs]
  exact if_pos hw

/-- How a tick ends after a rule that answered a next state (R125 to R127). -/
theorem endTick_next (s t : State) :
    (t.status = .running → endTick s (.next t) = .next (completeTick t)) ∧
      (∀ c, t.status = .faulted c → endTick s (.next t) = .next (takeFault s c)) := by
  constructor
  · intro h; simp [endTick, h]
  · intro c h; simp [endTick, h, raiseFault]

/-! ## The equation of each meaning -/

section
variable (s : State) (x y : Reg) (kk : Byte) (nnn : Addr) (n : Nibble)

theorem exec_cls : exec .cls s = .next (s.setScreen Screen.clear) := rfl
theorem exec_sys : exec (.sys nnn) s = .next (takeFault s .sysNotImplemented) := rfl
theorem exec_jp : exec (.jp nnn) s = .next (s.setPC (addrOperand nnn)) := rfl
theorem exec_jpV0Addr : exec (.jpV0Addr nnn) s = .next (s.setPC (jumpV0Target s nnn)) := rfl
theorem exec_seVxByte : exec (.seVxByte x kk) s = .next (skipIf s (s.getV x == kk)) := rfl
theorem exec_sneVxByte : exec (.sneVxByte x kk) s = .next (skipIf s (s.getV x != kk)) := rfl
theorem exec_seVxVy : exec (.seVxVy x y) s = .next (skipIf s (s.getV x == s.getV y)) := rfl
theorem exec_sneVxVy : exec (.sneVxVy x y) s = .next (skipIf s (s.getV x != s.getV y)) := rfl
theorem exec_ldVxByte : exec (.ldVxByte x kk) s = .next (s.setV x kk) := rfl
theorem exec_ldVxVy : exec (.ldVxVy x y) s = .next (s.setV x (s.getV y)) := rfl
theorem exec_ldIAddr : exec (.ldIAddr nnn) s = .next (s.setI (addrOperand nnn)) := rfl
theorem exec_ldVxDT : exec (.ldVxDT x) s = .next (s.setV x s.dt) := rfl
theorem exec_ldDTVx : exec (.ldDTVx x) s = .next (s.setDT (s.getV x)) := rfl
theorem exec_ldSTVx : exec (.ldSTVx x) s = .next (s.setST (s.getV x)) := rfl
theorem exec_ldVxK : exec (.ldVxK x) s = .next (s.setWaitk x.succ) := rfl
theorem exec_ldFVx : exec (.ldFVx x) s = .next (s.setI (fontAddr (s.getV x))) := rfl
theorem exec_addVxByte : exec (.addVxByte x kk) s = .next (s.setV x (s.getV x + kk)) := rfl
theorem exec_addVxVy :
    exec (.addVxVy x y) s = .next ((s.setV x (s.getV x + s.getV y)).setV VF (carryFlag (s.getV x) (s.getV y))) := rfl
theorem exec_addIVx : exec (.addIVx x) s = .next (s.setI (s.i + (s.getV x).setWidth 16)) := rfl
theorem exec_or : exec (.or x y) s = .next (s.setV x (s.getV x ||| s.getV y)) := rfl
theorem exec_and : exec (.and x y) s = .next (s.setV x (s.getV x &&& s.getV y)) := rfl
theorem exec_xor : exec (.xor x y) s = .next (s.setV x (s.getV x ^^^ s.getV y)) := rfl
theorem exec_sub :
    exec (.sub x y) s = .next (subInto (s.setV VF (greaterFlag (s.getV x) (s.getV y))) x y) := rfl
theorem exec_subn :
    exec (.subn x y) s = .next (subnInto (s.setV VF (greaterFlag (s.getV y) (s.getV x))) x y) := rfl
theorem exec_shr : exec (.shr x y) s = .next (shrInto (s.setV VF (shrFlag (s.getV y))) x y) := rfl
theorem exec_shl : exec (.shl x y) s = .next (shlBy shlVfBit x y s) := rfl
theorem exec_rnd :
    exec (.rnd x kk) s = .next ((s.setDraws (s.rngDraws + 1)).setV x (kk &&& Config.rngDraw s.rngDraws)) := rfl

/-- CALL (R145): the two cases. -/
theorem exec_call_cases :
    (∃ h : s.sp.val < 16, exec (.call nnn) s =
        .next ((s.setStack (s.stack.set s.sp.val s.pc h) ⟨s.sp.val + 1, Nat.succ_lt_succ h⟩).setPC (addrOperand nnn))) ∨
      (s.sp.val = 16 ∧ exec (.call nnn) s = .next (takeFault s .stackOverflow)) := by
  rcases push_cases s s.pc with ⟨h, e⟩ | ⟨h, e⟩
  · exact .inl ⟨h, by simp [exec, execCall, e]⟩
  · exact .inr ⟨h, by simp [exec, execCall, e, raiseFault]⟩

/-- RET (R142): the two cases. -/
theorem exec_ret_cases :
    (∃ (k : Nat) (h : k < 16), s.sp.val = k + 1 ∧
        exec .ret s = .next ((s.setStack s.stack ⟨k, Nat.lt_succ_of_lt h⟩).setPC s.stack[k])) ∨
      (s.sp.val = 0 ∧ exec .ret s = .next (takeFault s .stackUnderflow)) := by
  rcases pop_cases s with ⟨k, h, hk, e⟩ | ⟨h, e⟩
  · exact .inl ⟨k, h, hk, by simp [exec, execRet, e]⟩
  · exact .inr ⟨h, by simp [exec, execRet, e, raiseFault]⟩

/-- SKP (R150): the two cases. -/
theorem exec_skp_cases :
    ((s.getV x).toNat ≤ 15 ∧ exec (.skp x) s = .next (skipIf s (s.keys.getLsbD (s.getV x).toNat))) ∨
      (15 < (s.getV x).toNat ∧ exec (.skp x) s = .next (takeFault s .keyOutOfRange)) := by
  rcases keyDown_cases s x with ⟨h, e⟩ | ⟨h, e⟩
  · exact .inl ⟨h, by simp [exec, execSkp, e]⟩
  · exact .inr ⟨h, by simp [exec, execSkp, e, raiseFault]⟩

/-- SKNP (R151): the two cases. -/
theorem exec_sknp_cases :
    ((s.getV x).toNat ≤ 15 ∧ exec (.sknp x) s = .next (skipIf s (!s.keys.getLsbD (s.getV x).toNat))) ∨
      (15 < (s.getV x).toNat ∧ exec (.sknp x) s = .next (takeFault s .keyOutOfRange)) := by
  rcases keyDown_cases s x with ⟨h, e⟩ | ⟨h, e⟩
  · exact .inl ⟨h, by simp [exec, execSknp, e]⟩
  · exact .inr ⟨h, by simp [exec, execSknp, e, raiseFault]⟩

/-- LD B (R168): the two cases. -/
theorem exec_ldBVx_cases :
    (s.i.toNat + 3 ≤ memSize ∧
        exec (.ldBVx x) s = .next (s.setMem (s.mem.writeBytes s.i.toNat (bcdDigits (s.getV x))))) ∨
      (memSize < s.i.toNat + 3 ∧ exec (.ldBVx x) s = .next (takeFault s .memOutOfBounds)) := by
  rcases storeBytes_cases s (indirectAddr s 0) (bcdDigits (s.getV x)) with ⟨h, e⟩ | ⟨h, e⟩
  · exact .inl ⟨by simpa [indirectAddr] using h, by simp only [exec, execLdBVx, e, orFault]; rfl⟩
  · exact .inr ⟨by simpa [indirectAddr] using h, by simp [exec, execLdBVx, e, orFault, raiseFault]⟩

/-- LD [I], Vx (R169): the two cases. -/
theorem exec_ldATIVx_cases :
    (s.i.toNat + (x.val + 1) ≤ memSize ∧
        exec (.ldATIVx x) s = .next (s.setMem (s.mem.writeBytes s.i.toNat (regsUpTo s x)))) ∨
      (memSize < s.i.toNat + (x.val + 1) ∧ exec (.ldATIVx x) s = .next (takeFault s .memOutOfBounds)) := by
  rcases storeBytes_cases s (indirectAddr s 0) (regsUpTo s x) with ⟨h, e⟩ | ⟨h, e⟩
  · exact .inl ⟨by simpa [indirectAddr] using h, by simp only [exec, execLdATIVx, e, orFault]; rfl⟩
  · exact .inr ⟨by simpa [indirectAddr] using h, by simp [exec, execLdATIVx, e, orFault, raiseFault]⟩

/-- LD Vx, [I] (R170): the two cases. -/
theorem exec_ldVxATI_cases :
    (s.i.toNat + (x.val + 1) ≤ memSize ∧ exec (.ldVxATI x) s = .next (s.loadRegs s.i.toNat x)) ∨
      (memSize < s.i.toNat + (x.val + 1) ∧ exec (.ldVxATI x) s = .next (takeFault s .memOutOfBounds)) := by
  by_cases h : s.i.toNat + (x.val + 1) ≤ memSize
  · exact .inl ⟨h, by simp [exec, execLdVxATI, inBounds, indirectAddr, h]⟩
  · exact .inr ⟨by omega, by simp [exec, execLdVxATI, inBounds, indirectAddr, h, raiseFault]⟩

/-- DRW (R201): the three cases. -/
theorem exec_drw_cases :
    (n.toNat = 0 ∧ exec (.drw x y n) s = .next (takeFault s .drawHeightZero)) ∨
      (n.toNat ≠ 0 ∧ s.i.toNat + n.toNat ≤ memSize ∧ exec (.drw x y n) s =
        .next ((s.setScreen (drawResult s x y n.toNat).1).setV VF (collisionFlag (drawResult s x y n.toNat).2))) ∨
      (n.toNat ≠ 0 ∧ memSize < s.i.toNat + n.toNat ∧ exec (.drw x y n) s = .next (takeFault s .memOutOfBounds)) := by
  by_cases h0 : n.toNat = 0
  · exact .inl ⟨h0, by simp [exec, execDrw, h0, raiseFault]⟩
  · by_cases h : s.i.toNat + n.toNat ≤ memSize
    · exact .inr (.inl ⟨h0, h, by simp [exec, execDrw, inBounds, indirectAddr, h0, h]⟩)
    · exact .inr (.inr ⟨h0, by omega, by simp [exec, execDrw, inBounds, indirectAddr, h0, h, raiseFault]⟩)

end

end Sys2Proof.Machine
end

