-- ==== Sys2Proof/Laws/Display.lean ====
section
/-! SUPPORT. The sprite loop of DRW (spec/44_display.md R201) as one list of pixels, and what drawing a list of pixels at
places that are all different does to the screen and to the collision. -/

namespace Sys2Proof.Machine

/-- A pixel to draw: its row, its column and the sprite's bit. -/
abbrev Dot := Fin 32 × Fin 64 × Bool

/-- The pixels of the loop of R201, in its order. -/
def spriteDots (sx sy n : Nat) (rows : Nat → Byte) : List Dot :=
  (List.range n).flatMap fun row => (List.range 8).map fun col => (screenY sy row, screenX sx col, spriteBit (rows row) col)

/-- One pixel of the loop. -/
def drawDot (acc : Screen × Bool) (p : Dot) : Screen × Bool := drawPixel acc p.1 p.2.1 p.2.2

/-- The nested loop of R201 is the loop over its list of pixels. -/
theorem drawSprite_eq_foldl (scr : Screen) (sx sy n : Nat) (rows : Nat → Byte) :
    drawSprite scr sx sy n rows = (spriteDots sx sy n rows).foldl drawDot (scr, false) := by
  unfold drawSprite spriteDots
  generalize (scr, false) = acc
  generalize List.range n = l
  induction l generalizing acc with
  | nil => rfl
  | cons row rest ih =>
    rw [List.flatMap_cons, List.foldl_append, List.foldl_cons, List.foldl_map, ih]
    rfl

/-- Two dots at the same place. -/
def samePlace (p q : Dot) : Prop := p.1 = q.1 ∧ p.2.1 = q.2.1

theorem mem_spriteDots {sx sy n : Nat} {rows : Nat → Byte} {p : Dot} :
    p ∈ spriteDots sx sy n rows ↔
      ∃ row < n, ∃ col < 8, p = (screenY sy row, screenX sx col, spriteBit (rows row) col) := by
  simp only [spriteDots, List.mem_flatMap, List.mem_map, List.mem_range]
  constructor
  · rintro ⟨row, hr, col, hc, rfl⟩; exact ⟨row, hr, col, hc, rfl⟩
  · rintro ⟨row, hr, col, hc, rfl⟩; exact ⟨row, hr, col, hc, rfl⟩

/-- Rows less than 32 apart fall on different rows of the screen. -/
theorem screenY_inj {sy r r' : Nat} (hr : r < 32) (hr' : r' < 32) (h : screenY sy r = screenY sy r') : r = r' := by
  have := congrArg Fin.val h
  simp only [screenY, Fin.val_ofNat] at this
  omega

/-- Columns less than 64 apart fall on different columns of the screen. -/
theorem screenX_inj {sx c c' : Nat} (hc : c < 64) (hc' : c' < 64) (h : screenX sx c = screenX sx c') : c = c' := by
  have := congrArg Fin.val h
  simp only [screenX, Fin.val_ofNat] at this
  omega

/-- A sprite of at most 32 rows covers no pixel twice (R201). -/
theorem spriteDots_apart (sx sy n : Nat) (rows : Nat → Byte) (hn : n ≤ 32) :
    (spriteDots sx sy n rows).Pairwise fun p q => ¬ samePlace p q := by
  unfold spriteDots
  rw [List.pairwise_flatMap]
  constructor
  · intro row _
    rw [List.pairwise_map]
    refine List.Pairwise.imp_of_mem ?_ (List.pairwise_lt_range (n := 8))
    intro c c' hc hc' hlt h
    have hc := List.mem_range.mp hc
    have hc' := List.mem_range.mp hc'
    have := screenX_inj (by omega) (by omega) h.2
    omega
  · refine List.Pairwise.imp_of_mem ?_ (List.pairwise_lt_range (n := n))
    intro r r' hr hr' hlt p hp q hq h
    have hr := List.mem_range.mp hr
    have hr' := List.mem_range.mp hr'
    obtain ⟨c, -, rfl⟩ := List.mem_map.mp hp
    obtain ⟨c', -, rfl⟩ := List.mem_map.mp hq
    have := screenY_inj (by omega) (by omega) h.1
    omega

/-- The screen after drawing dots at different places: a pixel is flipped by a set dot on it. -/
theorem pixel_foldl_drawDot (l : List Dot) (acc : Screen × Bool) (hl : l.Pairwise fun p q => ¬ samePlace p q)
    (y : Fin 32) (x : Fin 64) :
    (l.foldl drawDot acc).1.pixel y x = (acc.1.pixel y x ^^ decide ((y, x, true) ∈ l)) := by
  induction l generalizing acc with
  | nil => simp
  | cons p rest ih =>
    obtain ⟨py, px, b⟩ := p
    rw [List.pairwise_cons] at hl
    rw [List.foldl_cons, ih _ hl.2]
    simp only [drawDot, drawPixel, pixel_setPixel]
    by_cases hp : y = py ∧ x = px
    · obtain ⟨rfl, rfl⟩ := hp
      have hno : ∀ b', (y, x, b') ∉ rest := fun b' hm => hl.1 _ hm ⟨rfl, rfl⟩
      cases b <;> simp [hno]
    · rw [if_neg hp]
      have : ((y, x, true) ∈ (py, px, b) :: rest) ↔ (y, x, true) ∈ rest := by
        rw [List.mem_cons, or_iff_right]
        intro e
        simp only [Prod.mk.injEq] at e
        exact hp ⟨e.1, e.2.1⟩
      simp only [this]

/-- The collision after drawing dots at different places: a set dot on a pixel that was set. -/
theorem collision_foldl_drawDot (l : List Dot) (acc : Screen × Bool) (hl : l.Pairwise fun p q => ¬ samePlace p q) :
    (l.foldl drawDot acc).2 = (acc.2 || l.any fun p => p.2.2 && acc.1.pixel p.1 p.2.1) := by
  induction l generalizing acc with
  | nil => simp
  | cons p rest ih =>
    rw [List.pairwise_cons] at hl
    rw [List.foldl_cons, ih _ hl.2, List.any_cons]
    have hrest : (rest.any fun q => q.2.2 && (drawDot acc p).1.pixel q.1 q.2.1) =
        rest.any fun q => q.2.2 && acc.1.pixel q.1 q.2.1 := by
      have hq : ∀ q ∈ rest, (drawDot acc p).1.pixel q.1 q.2.1 = acc.1.pixel q.1 q.2.1 := by
        intro q hq
        have : ¬ (q.1 = p.1 ∧ q.2.1 = p.2.1) := fun h => hl.1 q hq ⟨h.1.symm, h.2.symm⟩
        simp [drawDot, drawPixel, this]
      rw [Bool.eq_iff_iff, List.any_eq_true, List.any_eq_true]
      exact ⟨fun ⟨q, m, h⟩ => ⟨q, m, by rwa [hq q m] at h⟩, fun ⟨q, m, h⟩ => ⟨q, m, by rwa [hq q m]⟩⟩
    rw [hrest]
    simp only [drawDot, drawPixel]
    cases acc.2 <;> cases p.2.2 <;> simp

end Sys2Proof.Machine
end

