-- ==== Sys2Proof/Laws/Exec.lean ====
section
/-! SUPPORT. What Execute (spec/40_execution_cycle.md R124) can do to STATUS, CYCLES and KEYS, said once for all
instructions: a rule either leaves all three alone, or is exactly a fault entry (R13, R127). -/

namespace Sys2Proof.Machine

/-- Outside a fault entry no rule writes STATUS, CYCLES or KEYS (R28, R32, R33). -/
def keepsTickState (s t : State) : Prop := t.status = s.status ∧ t.cycles = s.cycles ∧ t.keys = s.keys

theorem keepsTickState_skipIf (s : State) (c : Bool) : keepsTickState s (skipIf s c) := by
  rw [skipIf_eq]; exact ⟨rfl, rfl, rfl⟩

/-- The inversion of Execute: every fault raised by a rule leaves the state as the rule found it but for STATUS. -/
theorem exec_cases {i : Instr} {s t : State} (h : exec i s = .next t) :
    (∃ c, t = takeFault s c) ∨ keepsTickState s t := by
  have faulted : ∀ {c}, exec i s = .next (takeFault s c) → (∃ c, t = takeFault s c) ∨ keepsTickState s t := by
    intro c e
    rw [e] at h
    injection h with h
    exact .inl ⟨c, h.symm⟩
  have kept : ∀ {u}, exec i s = .next u → keepsTickState s u → (∃ c, t = takeFault s c) ∨ keepsTickState s t := by
    intro u e k
    rw [e] at h
    injection h with h
    exact .inr (h ▸ k)
  have plain : ∀ {x : Reg} {b : Byte}, keepsTickState s (s.setV x b) := ⟨rfl, rfl, rfl⟩
  cases i
  case cls => exact kept (exec_cls s) ⟨rfl, rfl, rfl⟩
  case ret =>
    rcases exec_ret_cases s with ⟨_, _, _, e⟩ | ⟨_, e⟩
    · exact kept e ⟨rfl, rfl, rfl⟩
    · exact faulted e
  case sys nnn => exact faulted (exec_sys s nnn)
  case jp nnn => exact kept (exec_jp s nnn) ⟨rfl, rfl, rfl⟩
  case call nnn =>
    rcases exec_call_cases s nnn with ⟨_, e⟩ | ⟨_, e⟩
    · exact kept e ⟨rfl, rfl, rfl⟩
    · exact faulted e
  case seVxByte x kk => exact kept (exec_seVxByte s x kk) (keepsTickState_skipIf s _)
  case sneVxByte x kk => exact kept (exec_sneVxByte s x kk) (keepsTickState_skipIf s _)
  case seVxVy x y => exact kept (exec_seVxVy s x y) (keepsTickState_skipIf s _)
  case sneVxVy x y => exact kept (exec_sneVxVy s x y) (keepsTickState_skipIf s _)
  case ldVxByte x kk => exact kept (exec_ldVxByte s x kk) plain
  case addVxByte x kk => exact kept (exec_addVxByte s x kk) plain
  case ldVxVy x y => exact kept (exec_ldVxVy s x y) plain
  case or x y => exact kept (exec_or s x y) plain
  case and x y => exact kept (exec_and s x y) plain
  case xor x y => exact kept (exec_xor s x y) plain
  case addVxVy x y => exact kept (exec_addVxVy s x y) ⟨rfl, rfl, rfl⟩
  case sub x y => exact kept (exec_sub s x y) ⟨rfl, rfl, rfl⟩
  case subn x y => exact kept (exec_subn s x y) ⟨rfl, rfl, rfl⟩
  case shr x y => exact kept (exec_shr s x y) ⟨rfl, rfl, rfl⟩
  case shl x y => exact kept (exec_shl s x y) ⟨rfl, rfl, rfl⟩
  case ldIAddr nnn => exact kept (exec_ldIAddr s nnn) ⟨rfl, rfl, rfl⟩
  case jpV0Addr nnn => exact kept (exec_jpV0Addr s nnn) ⟨rfl, rfl, rfl⟩
  case rnd x kk => exact kept (exec_rnd s x kk) ⟨rfl, rfl, rfl⟩
  case drw x y n =>
    rcases exec_drw_cases s x y n with ⟨_, e⟩ | ⟨_, _, e⟩ | ⟨_, _, e⟩
    · exact faulted e
    · exact kept e ⟨by simp, by simp, by simp⟩
    · exact faulted e
  case skp x =>
    rcases exec_skp_cases s x with ⟨_, e⟩ | ⟨_, e⟩
    · exact kept e (keepsTickState_skipIf s _)
    · exact faulted e
  case sknp x =>
    rcases exec_sknp_cases s x with ⟨_, e⟩ | ⟨_, e⟩
    · exact kept e (keepsTickState_skipIf s _)
    · exact faulted e
  case ldVxDT x => exact kept (exec_ldVxDT s x) plain
  case ldVxK x => exact kept (exec_ldVxK s x) ⟨rfl, rfl, rfl⟩
  case ldDTVx x => exact kept (exec_ldDTVx s x) ⟨rfl, rfl, rfl⟩
  case ldSTVx x => exact kept (exec_ldSTVx s x) ⟨rfl, rfl, rfl⟩
  case addIVx x => exact kept (exec_addIVx s x) ⟨rfl, rfl, rfl⟩
  case ldFVx x => exact kept (exec_ldFVx s x) ⟨rfl, rfl, rfl⟩
  case ldBVx x =>
    rcases exec_ldBVx_cases s x with ⟨_, e⟩ | ⟨_, e⟩
    · exact kept e ⟨by simp, by simp, by simp⟩
    · exact faulted e
  case ldATIVx x =>
    rcases exec_ldATIVx_cases s x with ⟨_, e⟩ | ⟨_, e⟩
    · exact kept e ⟨by simp, by simp, by simp⟩
    · exact faulted e
  case ldVxATI x =>
    rcases exec_ldVxATI_cases s x with ⟨_, e⟩ | ⟨_, e⟩
    · exact kept e ⟨rfl, rfl, rfl⟩
    · exact faulted e

end Sys2Proof.Machine
end

