-- ==== Sys2Proof/Laws/PerInstr.lean ====
section
/-! SUPPORT. One fact per form about the source's (type, args) model of an instruction (spec/30_encoding.md R75 to R77,
R80, R100): the form's (type, args) value reads back as the form, and it passes the encoder's checks 1 to 4 and the JP
check of R103. -/

namespace Sys2Proof.Laws.SourceForm

/-- The (type, args) value of `i` is a shape of R100 whose operands are those of `i`, with at most three arguments,
registers and constants in range, and every tag that carries no information at 0. -/
structure Statement (i : Instr) : Prop where
  form : i.toInstruction.form? = some i
  notInvalid : i.toInstruction.type ≠ .invalid
  atMostThree : i.toInstruction.args.length ≤ 3
  checks : (registersInRange i.toInstruction.args && valuelessAreZero i.toInstruction.args &&
    constantsInRange i.constantMax i.toInstruction.args && jumpRegisterIsZero i i.toInstruction.args) = true

/-- The value of `V(r)` is the register's number, at most 15 (R74, R80). -/
theorem argV_toNat (r : Reg) : (BitVec.ofNat 16 r.val).toNat = r.val := by
  simp only [BitVec.toNat_ofNat]
  omega

/-- Reading the register of `V(r)` gives r back. -/
@[simp] theorem regOfValue_argV (r : Reg) : regOfValue (argV r).value = r := by
  apply Fin.ext
  simp only [regOfValue, argV, argV_toNat, Fin.val_ofNat]
  omega

/-- The constant of `CONST(v)` narrowed to its field is v (R74). -/
@[simp] theorem setWidth_argConst {m : Nat} (v : BitVec m) (h : m ≤ 16) : (argConst v).value.setWidth m = v :=
  (BitVec.setWidth_setWidth_of_le v h).trans (BitVec.setWidth_eq v)

theorem cls : Statement .cls := by
  constructor <;> decide

theorem ret : Statement .ret := by
  constructor <;> decide

theorem sys (nnn : Addr) : Statement (.sys nnn) := by
  refine ⟨by show some (Instr.sys ((argConst nnn).value.setWidth 12)) = _; simp,
    nofun, by simp [Instr.toInstruction], ?_⟩
  simp [Instr.toInstruction, registersInRange, valuelessAreZero, constantsInRange,
    jumpRegisterIsZero, argConst, Instr.constantMax]
  omega

theorem jp (nnn : Addr) : Statement (.jp nnn) := by
  refine ⟨by show some (Instr.jp ((argConst nnn).value.setWidth 12)) = _; simp,
    nofun, by simp [Instr.toInstruction], ?_⟩
  simp [Instr.toInstruction, registersInRange, valuelessAreZero, constantsInRange,
    jumpRegisterIsZero, argConst, Instr.constantMax]
  omega

theorem call (nnn : Addr) : Statement (.call nnn) := by
  refine ⟨by show some (Instr.call ((argConst nnn).value.setWidth 12)) = _; simp,
    nofun, by simp [Instr.toInstruction], ?_⟩
  simp [Instr.toInstruction, registersInRange, valuelessAreZero, constantsInRange,
    jumpRegisterIsZero, argConst, Instr.constantMax]
  omega

theorem seVxByte (x : Reg) (kk : Byte) : Statement (.seVxByte x kk) := by
  refine ⟨by show some (Instr.seVxByte (regOfValue (argV x).value) ((argConst kk).value.setWidth 8)) = _; simp,
    nofun, by simp [Instr.toInstruction], ?_⟩
  simp [Instr.toInstruction, registersInRange, valuelessAreZero, constantsInRange,
    jumpRegisterIsZero, argV, argConst, Instr.constantMax]
  omega

theorem sneVxByte (x : Reg) (kk : Byte) : Statement (.sneVxByte x kk) := by
  refine ⟨by show some (Instr.sneVxByte (regOfValue (argV x).value) ((argConst kk).value.setWidth 8)) = _; simp,
    nofun, by simp [Instr.toInstruction], ?_⟩
  simp [Instr.toInstruction, registersInRange, valuelessAreZero, constantsInRange,
    jumpRegisterIsZero, argV, argConst, Instr.constantMax]
  omega

theorem seVxVy (x y : Reg) : Statement (.seVxVy x y) := by
  refine ⟨by show some (Instr.seVxVy (regOfValue (argV x).value) (regOfValue (argV y).value)) = _; simp,
    nofun, by simp [Instr.toInstruction], ?_⟩
  simp [Instr.toInstruction, registersInRange, valuelessAreZero, constantsInRange, jumpRegisterIsZero, argV]
  omega

theorem ldVxByte (x : Reg) (kk : Byte) : Statement (.ldVxByte x kk) := by
  refine ⟨by show some (Instr.ldVxByte (regOfValue (argV x).value) ((argConst kk).value.setWidth 8)) = _; simp,
    nofun, by simp [Instr.toInstruction], ?_⟩
  simp [Instr.toInstruction, registersInRange, valuelessAreZero, constantsInRange,
    jumpRegisterIsZero, argV, argConst, Instr.constantMax]
  omega

theorem addVxByte (x : Reg) (kk : Byte) : Statement (.addVxByte x kk) := by
  refine ⟨by show some (Instr.addVxByte (regOfValue (argV x).value) ((argConst kk).value.setWidth 8)) = _; simp,
    nofun, by simp [Instr.toInstruction], ?_⟩
  simp [Instr.toInstruction, registersInRange, valuelessAreZero, constantsInRange,
    jumpRegisterIsZero, argV, argConst, Instr.constantMax]
  omega

theorem ldVxVy (x y : Reg) : Statement (.ldVxVy x y) := by
  refine ⟨by show some (Instr.ldVxVy (regOfValue (argV x).value) (regOfValue (argV y).value)) = _; simp,
    nofun, by simp [Instr.toInstruction], ?_⟩
  simp [Instr.toInstruction, registersInRange, valuelessAreZero, constantsInRange, jumpRegisterIsZero, argV]
  omega

theorem or (x y : Reg) : Statement (.or x y) := by
  refine ⟨by show some (Instr.or (regOfValue (argV x).value) (regOfValue (argV y).value)) = _; simp,
    nofun, by simp [Instr.toInstruction], ?_⟩
  simp [Instr.toInstruction, registersInRange, valuelessAreZero, constantsInRange, jumpRegisterIsZero, argV]
  omega

theorem and (x y : Reg) : Statement (.and x y) := by
  refine ⟨by show some (Instr.and (regOfValue (argV x).value) (regOfValue (argV y).value)) = _; simp,
    nofun, by simp [Instr.toInstruction], ?_⟩
  simp [Instr.toInstruction, registersInRange, valuelessAreZero, constantsInRange, jumpRegisterIsZero, argV]
  omega

theorem xor (x y : Reg) : Statement (.xor x y) := by
  refine ⟨by show some (Instr.xor (regOfValue (argV x).value) (regOfValue (argV y).value)) = _; simp,
    nofun, by simp [Instr.toInstruction], ?_⟩
  simp [Instr.toInstruction, registersInRange, valuelessAreZero, constantsInRange, jumpRegisterIsZero, argV]
  omega

theorem addVxVy (x y : Reg) : Statement (.addVxVy x y) := by
  refine ⟨by show some (Instr.addVxVy (regOfValue (argV x).value) (regOfValue (argV y).value)) = _; simp,
    nofun, by simp [Instr.toInstruction], ?_⟩
  simp [Instr.toInstruction, registersInRange, valuelessAreZero, constantsInRange, jumpRegisterIsZero, argV]
  omega

theorem sub (x y : Reg) : Statement (.sub x y) := by
  refine ⟨by show some (Instr.sub (regOfValue (argV x).value) (regOfValue (argV y).value)) = _; simp,
    nofun, by simp [Instr.toInstruction], ?_⟩
  simp [Instr.toInstruction, registersInRange, valuelessAreZero, constantsInRange, jumpRegisterIsZero, argV]
  omega

theorem shr (x y : Reg) : Statement (.shr x y) := by
  refine ⟨by show some (Instr.shr (regOfValue (argV x).value) (regOfValue (argV y).value)) = _; simp,
    nofun, by simp [Instr.toInstruction], ?_⟩
  simp [Instr.toInstruction, registersInRange, valuelessAreZero, constantsInRange, jumpRegisterIsZero, argV]
  omega

theorem subn (x y : Reg) : Statement (.subn x y) := by
  refine ⟨by show some (Instr.subn (regOfValue (argV x).value) (regOfValue (argV y).value)) = _; simp,
    nofun, by simp [Instr.toInstruction], ?_⟩
  simp [Instr.toInstruction, registersInRange, valuelessAreZero, constantsInRange, jumpRegisterIsZero, argV]
  omega

theorem shl (x y : Reg) : Statement (.shl x y) := by
  refine ⟨by show some (Instr.shl (regOfValue (argV x).value) (regOfValue (argV y).value)) = _; simp,
    nofun, by simp [Instr.toInstruction], ?_⟩
  simp [Instr.toInstruction, registersInRange, valuelessAreZero, constantsInRange, jumpRegisterIsZero, argV]
  omega

theorem sneVxVy (x y : Reg) : Statement (.sneVxVy x y) := by
  refine ⟨by show some (Instr.sneVxVy (regOfValue (argV x).value) (regOfValue (argV y).value)) = _; simp,
    nofun, by simp [Instr.toInstruction], ?_⟩
  simp [Instr.toInstruction, registersInRange, valuelessAreZero, constantsInRange, jumpRegisterIsZero, argV]
  omega

theorem ldIAddr (nnn : Addr) : Statement (.ldIAddr nnn) := by
  refine ⟨by show some (Instr.ldIAddr ((argConst nnn).value.setWidth 12)) = _; simp,
    nofun, by simp [Instr.toInstruction], ?_⟩
  simp [Instr.toInstruction, registersInRange, valuelessAreZero, constantsInRange,
    jumpRegisterIsZero, argConst, Instr.constantMax, argTag]
  omega

theorem jpV0Addr (nnn : Addr) : Statement (.jpV0Addr nnn) := by
  refine ⟨by show some (Instr.jpV0Addr ((argConst nnn).value.setWidth 12)) = _; simp,
    nofun, by simp [Instr.toInstruction], ?_⟩
  simp [Instr.toInstruction, registersInRange, valuelessAreZero, constantsInRange,
    jumpRegisterIsZero, argV, argConst, Instr.constantMax]
  omega

theorem rnd (x : Reg) (kk : Byte) : Statement (.rnd x kk) := by
  refine ⟨by show some (Instr.rnd (regOfValue (argV x).value) ((argConst kk).value.setWidth 8)) = _; simp,
    nofun, by simp [Instr.toInstruction], ?_⟩
  simp [Instr.toInstruction, registersInRange, valuelessAreZero, constantsInRange,
    jumpRegisterIsZero, argV, argConst, Instr.constantMax]
  omega

theorem drw (x y : Reg) (n : Nibble) : Statement (.drw x y n) := by
  refine ⟨by show some (Instr.drw (regOfValue (argV x).value) (regOfValue (argV y).value) ((argConst n).value.setWidth 4)) = _; simp,
    nofun, by simp [Instr.toInstruction], ?_⟩
  simp [Instr.toInstruction, registersInRange, valuelessAreZero, constantsInRange,
    jumpRegisterIsZero, argV, argConst, Instr.constantMax]
  omega

theorem skp (x : Reg) : Statement (.skp x) := by
  refine ⟨by show some (Instr.skp (regOfValue (argV x).value)) = _; simp, nofun, by simp [Instr.toInstruction], ?_⟩
  simp [Instr.toInstruction, registersInRange, valuelessAreZero, constantsInRange, jumpRegisterIsZero, argV]
  omega

theorem sknp (x : Reg) : Statement (.sknp x) := by
  refine ⟨by show some (Instr.sknp (regOfValue (argV x).value)) = _; simp, nofun, by simp [Instr.toInstruction], ?_⟩
  simp [Instr.toInstruction, registersInRange, valuelessAreZero, constantsInRange, jumpRegisterIsZero, argV]
  omega

theorem ldVxDT (x : Reg) : Statement (.ldVxDT x) := by
  refine ⟨by show some (Instr.ldVxDT (regOfValue (argV x).value)) = _; simp, nofun, by simp [Instr.toInstruction], ?_⟩
  simp [Instr.toInstruction, registersInRange, valuelessAreZero, constantsInRange, jumpRegisterIsZero, argV, argTag]
  omega

theorem ldVxK (x : Reg) : Statement (.ldVxK x) := by
  refine ⟨by show some (Instr.ldVxK (regOfValue (argV x).value)) = _; simp, nofun, by simp [Instr.toInstruction], ?_⟩
  simp [Instr.toInstruction, registersInRange, valuelessAreZero, constantsInRange, jumpRegisterIsZero, argV, argTag]
  omega

theorem ldDTVx (x : Reg) : Statement (.ldDTVx x) := by
  refine ⟨by show some (Instr.ldDTVx (regOfValue (argV x).value)) = _; simp, nofun, by simp [Instr.toInstruction], ?_⟩
  simp [Instr.toInstruction, registersInRange, valuelessAreZero, constantsInRange, jumpRegisterIsZero, argV, argTag]
  omega

theorem ldSTVx (x : Reg) : Statement (.ldSTVx x) := by
  refine ⟨by show some (Instr.ldSTVx (regOfValue (argV x).value)) = _; simp, nofun, by simp [Instr.toInstruction], ?_⟩
  simp [Instr.toInstruction, registersInRange, valuelessAreZero, constantsInRange, jumpRegisterIsZero, argV, argTag]
  omega

theorem addIVx (x : Reg) : Statement (.addIVx x) := by
  refine ⟨by show some (Instr.addIVx (regOfValue (argV x).value)) = _; simp, nofun, by simp [Instr.toInstruction], ?_⟩
  simp [Instr.toInstruction, registersInRange, valuelessAreZero, constantsInRange, jumpRegisterIsZero, argV, argTag]
  omega

theorem ldFVx (x : Reg) : Statement (.ldFVx x) := by
  refine ⟨by show some (Instr.ldFVx (regOfValue (argV x).value)) = _; simp, nofun, by simp [Instr.toInstruction], ?_⟩
  simp [Instr.toInstruction, registersInRange, valuelessAreZero, constantsInRange, jumpRegisterIsZero, argV, argTag]
  omega

theorem ldBVx (x : Reg) : Statement (.ldBVx x) := by
  refine ⟨by show some (Instr.ldBVx (regOfValue (argV x).value)) = _; simp, nofun, by simp [Instr.toInstruction], ?_⟩
  simp [Instr.toInstruction, registersInRange, valuelessAreZero, constantsInRange, jumpRegisterIsZero, argV, argTag]
  omega

theorem ldATIVx (x : Reg) : Statement (.ldATIVx x) := by
  refine ⟨by show some (Instr.ldATIVx (regOfValue (argV x).value)) = _; simp,
    nofun, by simp [Instr.toInstruction], ?_⟩
  simp [Instr.toInstruction, registersInRange, valuelessAreZero, constantsInRange, jumpRegisterIsZero, argV, argTag]
  omega

theorem ldVxATI (x : Reg) : Statement (.ldVxATI x) := by
  refine ⟨by show some (Instr.ldVxATI (regOfValue (argV x).value)) = _; simp,
    nofun, by simp [Instr.toInstruction], ?_⟩
  simp [Instr.toInstruction, registersInRange, valuelessAreZero, constantsInRange, jumpRegisterIsZero, argV, argTag]
  omega

end Sys2Proof.Laws.SourceForm
end

