-- ==== Sys2Proof/Tests/Slice0.lean ====
section
/-! SUPPORT. Tests: the smoke test of WellFormed, one decoding per form written out from its encoding, at most two
one-step vectors per instruction taken from spec/95_test_vectors.md, and a witness for the hypotheses of each statement.
The values expected by a decoding test are read from spec/30_encoding.md R73, R74 and R100; those of a step test are the
spec's vectors L1 and L2. -/

namespace Sys2Proof.Tests
open Sys2Proof Sys2Proof.Machine

/-- The start of a vector (spec/95): the constructed machine with the word at 0x200, then what the vector sets. -/
def start (w : Nat) (prep : State → State := id) : State := prep (State.reset.withFetchWord 16 w)

/-- One tick. -/
def after (s : State) : State :=
  match step s with
  | .next t => t
  | .fault _ | .refused _ => s

/-- One Execute. -/
def executed (i : Instr) (s : State) : State :=
  match exec i s with
  | .next t => t
  | .fault _ | .refused _ => s

/-- Memory bytes set by a vector. -/
def bytesAt (a : Nat) (bs : List Byte) (s : State) : State := s.setMem (s.mem.writeBytes a bs)

/-! ## WellFormed: each ill-formed term is refused (R81, R103) -/

theorem smoke_sys_0E0_refused : (Instr.sys 0x0E0).wellFormed = false := by decide
theorem smoke_sys_0EE_refused : (Instr.sys 0x0EE).wellFormed = false := by decide
theorem smoke_sys_neighbours_accepted :
    (Instr.sys 0x0E1).wellFormed = true ∧ (Instr.sys 0x0EF).wellFormed = true ∧ (Instr.sys 0xEEE).wellFormed = true := by
  decide

/-! ## Decode: every form, the word written out as nibbles of R73 -/

theorem test_decode_group0 :
    decode 0b0000000011100000#16 = .ok .cls ∧ decode 0b0000000011101110#16 = .ok .ret ∧
    decode 0b0000111011101110#16 = .ok (.sys 0xEEE) := by decide

theorem test_decode_jumps :
    decode 0b0001001101000101#16 = .ok (.jp 0x345) ∧ decode 0b0010010000000001#16 = .ok (.call 0x401) ∧
    decode 0b1011010111111111#16 = .ok (.jpV0Addr 0x5FF) := by decide

theorem test_decode_skips :
    decode 0b0011000100110011#16 = .ok (.seVxByte 1 0x33) ∧ decode 0b0100111000000001#16 = .ok (.sneVxByte 14 0x01) ∧
    decode 0b0101000100100101#16 = .ok (.seVxVy 1 2) ∧ decode 0b1001000100101111#16 = .ok (.sneVxVy 1 2) ∧
    decode 0b1110010110011110#16 = .ok (.skp 5) ∧ decode 0b1110011010100001#16 = .ok (.sknp 6) := by decide

theorem test_decode_byte_forms :
    decode 0b0110000000010010#16 = .ok (.ldVxByte 0 0x12) ∧ decode 0b0111001100000010#16 = .ok (.addVxByte 3 0x02) ∧
    decode 0b1100001100001111#16 = .ok (.rnd 3 0x0F) := by decide

theorem test_decode_group8_low :
    decode 0b1000000100100000#16 = .ok (.ldVxVy 1 2) ∧ decode 0b1000000100100001#16 = .ok (.or 1 2) ∧
    decode 0b1000000100100010#16 = .ok (.and 1 2) ∧ decode 0b1000000100100011#16 = .ok (.xor 1 2) ∧
    decode 0b1000000100100100#16 = .ok (.addVxVy 1 2) := by decide

theorem test_decode_group8_high :
    decode 0b1000000100100101#16 = .ok (.sub 1 2) ∧ decode 0b1000001000000110#16 = .ok (.shr 2 0) ∧
    decode 0b1000000100100111#16 = .ok (.subn 1 2) ∧ decode 0b1000111111111110#16 = .ok (.shl 15 15) := by decide

theorem test_decode_index_and_draw :
    decode 0b1010001000001100#16 = .ok (.ldIAddr 0x20C) ∧ decode 0b1101000100100101#16 = .ok (.drw 1 2 5) := by decide

theorem test_decode_groupF :
    decode 0b1111001100000111#16 = .ok (.ldVxDT 3) ∧ decode 0b1111000000001010#16 = .ok (.ldVxK 0) ∧
    decode 0b1111000100010101#16 = .ok (.ldDTVx 1) ∧ decode 0b1111000100011000#16 = .ok (.ldSTVx 1) ∧
    decode 0b1111001000011110#16 = .ok (.addIVx 2) ∧ decode 0b1111010000101001#16 = .ok (.ldFVx 4) ∧
    decode 0b1111010100110011#16 = .ok (.ldBVx 5) ∧ decode 0b1111001001010101#16 = .ok (.ldATIVx 2) ∧
    decode 0b1111000101100101#16 = .ok (.ldVxATI 1) := by decide

/-- The INVALID words of L1-2 and L2.2, rejected with the word kept (R87). -/
theorem test_decode_invalid :
    decode 0x8128#16 = .error (.invalid 0x8128) ∧ decode 0x812F#16 = .error (.invalid 0x812F) ∧
    decode 0xE2A2#16 = .error (.invalid 0xE2A2) ∧ decode 0xF300#16 = .error (.invalid 0xF300) ∧
    decode 0xFFFF#16 = .error (.invalid 0xFFFF) := by decide

/-- Bytes in memory order, most significant first; one byte is no instruction (R53, R70). -/
theorem test_decode_bytes :
    decodeBytes [0xD1, 0x25, 0x77] = .ok (.drw 1 2 5, [0x77]) ∧ decodeBytes [0xD1] = .error .truncated ∧
    decodeTableWord 16 0xD125 = some (.drw 1 2 5) ∧ decodeTableWord 16 0x8128 = none ∧
    encodeBytes (.ldVxByte 0 0x12) = [0x60, 0x12] := by decide

/-- L2.3, the words. -/
theorem test_encode_words :
    encodeInstruction ⟨.sys, [⟨.constant, 0x123⟩]⟩ = .ok 0x0123 ∧
    encodeInstruction ⟨.se, [⟨.reg, 1⟩, ⟨.reg, 2⟩]⟩ = .ok 0x5120 ∧
    encodeInstruction ⟨.jp, [⟨.reg, 0⟩, ⟨.constant, 0x300⟩]⟩ = .ok 0xB300 ∧
    encodeInstruction ⟨.drw, [⟨.reg, 1⟩, ⟨.reg, 2⟩, ⟨.constant, 0⟩]⟩ = .ok 0xD120 ∧
    encodeInstruction ⟨.ld, [⟨.reg, 3⟩, ⟨.ati, 0⟩]⟩ = .ok 0xF365 := by decide

/-- L2.3, the errors. -/
theorem test_encode_errors :
    encodeInstruction ⟨.sys, [⟨.constant, 0x1000⟩]⟩ = .error .constantOutOfRange ∧
    encodeInstruction ⟨.se, [⟨.reg, 16⟩, ⟨.constant, 1⟩]⟩ = .error .unencodable ∧
    encodeInstruction ⟨.jp, [⟨.reg, 2⟩, ⟨.constant, 0x1000⟩]⟩ = .error .constantOutOfRange ∧
    encodeInstruction ⟨.ld, [⟨.dt, 1⟩, ⟨.reg, 1⟩]⟩ = .error .unencodable ∧
    encodeInstruction ⟨.add, [⟨.index, 0⟩, ⟨.constant, 5⟩]⟩ = .error .unencodable ∧
    encodeInstruction ⟨.cls, [⟨.constant, 0⟩]⟩ = .error .unencodable := by decide

/-! ## The tick (L2.4) -/

theorem test_tick_fetch_faults :
    (after (start 0x6001 (·.setPC 0x201))).status = .faulted .misalignedFetch ∧
    (after (start 0x6001 (·.setPC 0x1000))).status = .faulted .fetchOutOfBounds := by decide

theorem test_tick_last_word :
    (after (bytesAt 0xFFE [0x60, 0x01] (State.reset.setPC 0xFFE))).pc = 0x1000 ∧
    (after (bytesAt 0xFFE [0x60, 0x01] (State.reset.setPC 0xFFE))).getV 0 = 1 := by decide

theorem test_tick_invalid_keeps_timers :
    after (start 0x8128 (·.setDT 2)) = (start 0x8128 (·.setDT 2)).setStatus (.faulted .invalidInstruction) := by decide

theorem test_tick_timers :
    (after (start 0x1200 fun s => (s.setDT 2).setST 1)).dt = 1 ∧ (after (start 0x1200 fun s => (s.setDT 2).setST 1)).st = 0 ∧
    (after (start 0x1200 fun s => (s.setDT 2).setST 1)).cycles = 1 ∧ (after (start 0x1200)).dt = 0 := by decide

/-! ## Control flow (L2.5) -/

theorem test_ret : (after (start 0x00EE fun s => s.setStack (s.stack.set 0 0x206) 1)).pc = 0x206 ∧
    (after (start 0x00EE fun s => s.setStack (s.stack.set 0 0x206) 1)).sp = 0 ∧
    (after (start 0x00EE fun s => s.setStack (s.stack.set 0 0x206) 1)).stack[0] = 0x206 := by decide
theorem test_ret_underflow : after (start 0x00EE) = (start 0x00EE).setStatus (.faulted .stackUnderflow) := by decide
theorem test_sys : after (start 0x0123) = (start 0x0123).setStatus (.faulted .sysNotImplemented) := by decide
theorem test_jp : (after (start 0x1345)).pc = 0x345 := by decide
theorem test_jpV0 : (after (start 0xB5FF fun s => (s.setV 0 1).setV 5 9)).pc = 0x600 := by decide
theorem test_jpV0_no_wrap : (after (start 0xBFFF (·.setV 0 0xFF))).pc = 0x10FE := by decide
theorem test_call : (after (start 0x2400 fun s => s.setStack s.stack 15)).pc = 0x400 ∧
    (after (start 0x2400 fun s => s.setStack s.stack 15)).sp = 16 ∧
    (after (start 0x2400 fun s => s.setStack s.stack 15)).stack[15] = 0x202 := by decide
theorem test_call_overflow : (after (start 0x2400 fun s => s.setStack s.stack 16)).status = .faulted .stackOverflow := by decide
theorem test_seVxByte : (after (start 0x3133 (·.setV 1 0x33))).pc = 0x204 ∧ (after (start 0x3133 (·.setV 1 0x34))).pc = 0x202 := by decide
theorem test_sneVxByte : (after (start 0x4133 (·.setV 1 0x33))).pc = 0x202 ∧ (after (start 0x4133 (·.setV 1 0x34))).pc = 0x204 := by decide
theorem test_seVxVy : (after (start 0x5125 fun s => (s.setV 1 7).setV 2 7)).pc = 0x204 ∧ (after (start 0x5120 (·.setV 1 7))).pc = 0x202 := by decide
theorem test_sneVxVy : (after (start 0x9120 fun s => (s.setV 1 7).setV 2 8)).pc = 0x204 ∧ (after (start 0x9120)).pc = 0x202 := by decide
theorem test_skp : (after (start 0xE39E fun s => (s.setV 3 5).setKeys 0x0020)).pc = 0x204 ∧
    (after (start 0xE39E fun s => (s.setV 3 5).setKeys 0xFFDF)).pc = 0x202 := by decide
theorem test_skp_out_of_range : (after (start 0xE39E (·.setV 3 16))).status = .faulted .keyOutOfRange := by decide
theorem test_sknp : (after (start 0xE3A1 (·.setV 3 5))).pc = 0x204 ∧
    (after (start 0xE3A1 fun s => (s.setV 3 5).setKeys 0x0020)).pc = 0x202 := by decide

/-! ## Loads (L2.6) -/

theorem test_ldVxByte : (after (start 0x6012)).getV 0 = 0x12 := by decide
theorem test_ldVxVy : (after (start 0x8120 (·.setV 2 0x55))).getV 1 = 0x55 := by decide
theorem test_ldIAddr : (after (start 0xA20C (·.setI 0xF000))).i = 0x020C := by decide
theorem test_ldVxDT : (after (start 0xF307 (·.setDT 3))).getV 3 = 3 ∧ (after (start 0xF307 (·.setDT 3))).dt = 2 := by decide
theorem test_ldDTVx : (after (start 0xF115 (·.setV 1 5))).dt = 4 := by decide
theorem test_ldSTVx : (after (start 0xF118 (·.setV 1 10))).st = 9 ∧ (after (start 0xF118 (·.setV 1 1))).st = 0 := by decide
theorem test_ldVxK : (after (start 0xFF0A)).waitk = 16 ∧ (after (start 0xFF0A)).getV 15 = 0 ∧ (after (start 0xFF0A)).cycles = 1 := by decide
theorem test_ldFVx : (after (start 0xF429 (·.setV 4 0x3A))).i = 0x032 := by decide
theorem test_ldBVx : (after (start 0xF533 fun s => (s.setV 5 254).setI 0x300)).mem.readBytes 0x300 3 = [0x02, 0x05, 0x04] := by decide
theorem test_ldBVx_out_of_bounds : after (start 0xF533 fun s => (s.setV 5 123).setI 0xFFE) =
    (start 0xF533 fun s => (s.setV 5 123).setI 0xFFE).setStatus (.faulted .memOutOfBounds) := by decide
theorem test_ldATIVx : (after (start 0xF255 fun s => (((s.setV 0 1).setV 1 2).setV 2 3).setI 0xFFD)).mem.readBytes 0xFFD 3 =
    [0x01, 0x02, 0x03] := by decide
theorem test_ldATIVx_out_of_bounds : after (start 0xF255 fun s => (s.setV 0 1).setI 0xFFE) =
    (start 0xF255 fun s => (s.setV 0 1).setI 0xFFE).setStatus (.faulted .memOutOfBounds) := by decide
theorem test_ldVxATI : (after (start 0xF265 fun s => bytesAt 0x400 [0x02, 0x05, 0x04, 0x09] (s.setI 0x400))).v.toList.take 4 =
    [0x02, 0x05, 0x04, 0x00] := by decide
theorem test_ldVxATI_out_of_bounds : (after (start 0xFF65 (·.setI 0xFF1))).status = .faulted .memOutOfBounds := by decide

/-! ## Arithmetic (L2.7) -/

theorem test_addVxByte : (after (start 0x7302 fun s => (s.setV 3 0xFF).setV VF 0x55)).getV 3 = 0x01 ∧
    (after (start 0x7302 fun s => (s.setV 3 0xFF).setV VF 0x55)).getV VF = 0x55 := by decide
theorem test_addVxVy : (after (start 0x8124 fun s => (s.setV 1 0x7F).setV 2 0x80)).getV 1 = 0xFF ∧
    (after (start 0x8124 fun s => (s.setV 1 0x80).setV 2 0x80)).getV VF = 1 := by decide
theorem test_addVxVy_alias : (after (start 0x8F24 fun s => (s.setV VF 0x10).setV 2 2)).getV VF = 0 ∧
    (after (start 0x81F4 fun s => (s.setV 1 0xFF).setV VF 2)).getV 1 = 0x01 := by decide
theorem test_addIVx : (after (start 0xF01E fun s => (s.setI 0x0FFF).setV 0 1)).i = 0x1000 ∧
    (after (start 0xF01E fun s => (s.setI 0xFFFF).setV 0 2)).i = 0x0001 := by decide
theorem test_or : (after (start 0x8121 fun s => (s.setV 1 0xF0).setV 2 0x3C)).getV 1 = 0xFC := by decide
theorem test_and : (after (start 0x8122 fun s => (s.setV 1 0xF0).setV 2 0x3C)).getV 1 = 0x30 := by decide
theorem test_xor : (after (start 0x8123 fun s => (s.setV 1 0xF0).setV 2 0x3C)).getV 1 = 0xCC := by decide
theorem test_sub : (after (start 0x8125 fun s => (s.setV 1 5).setV 2 10)).getV 1 = 0xFB ∧
    (after (start 0x8125 fun s => (s.setV 1 10).setV 2 5)).getV VF = 1 ∧
    (after (start 0x8125 fun s => ((s.setV 1 7).setV 2 7).setV VF 9)).getV VF = 0 := by decide
theorem test_sub_alias : (after (start 0x8F25 fun s => (s.setV VF 10).setV 2 3)).getV VF = 0xFE ∧
    (after (start 0x81F5 fun s => (s.setV 1 10).setV VF 3)).getV 1 = 0x09 := by decide
theorem test_subn : (after (start 0x8127 fun s => (s.setV 1 5).setV 2 10)).getV 1 = 0x05 ∧
    (after (start 0x8127 fun s => (s.setV 1 5).setV 2 10)).getV VF = 1 := by decide
theorem test_subn_alias : (after (start 0x8F27 fun s => (s.setV VF 3).setV 2 10)).getV VF = 0x09 ∧
    (after (start 0x81F7 fun s => (s.setV 1 3).setV VF 10)).getV 1 = 0xFE := by decide
theorem test_shr : (after (start 0x8206 (·.setV 0 0xFB))).getV 0 = 0x7D ∧ (after (start 0x8206 (·.setV 0 0xFB))).getV 2 = 0x7D ∧
    (after (start 0x8206 (·.setV 0 0xFB))).getV VF = 1 := by decide
theorem test_shr_alias : (after (start 0x8F26 (·.setV 2 0x03))).getV VF = 0x01 ∧ (after (start 0x81F6 (·.setV VF 0x03))).getV 1 = 0x00 := by decide
theorem test_shl : (after (start 0x812E (·.setV 2 0x81))).getV 1 = 0x02 ∧ (after (start 0x812E (·.setV 2 0x81))).getV 2 = 0x02 ∧
    (after (start 0x812E (·.setV 2 0x81))).getV VF = 1 ∧ (after (start 0x812E (·.setV 2 0x80))).getV VF = 0 := by decide
theorem test_shl_high : (shlBy .high 1 2 (State.reset.setV 2 0x80)).getV VF = 1 ∧ (shlBy .high 1 2 (State.reset.setV 2 0x01)).getV VF = 0 ∧
    (shlBy .high 15 2 (State.reset.setV 2 0x81)).getV VF = 0x02 := by decide
/-- The draw is free, so the one value the spec fixes is that of kk = 0; the draw is consumed (R190). -/
theorem test_rnd : (after (start 0xC300 (·.setV 3 9))).rngDraws = 1 := by decide

/-! ## Display (L2.8) -/

theorem test_cls : (after (start 0x00E0 fun s => (s.setScreen (s.screen.setPixel 31 63 true)).setV VF 7)).screen.pixel 31 63 = false ∧
    (after (start 0x00E0 fun s => (s.setScreen (s.screen.setPixel 31 63 true)).setV VF 7)).getV VF = 7 := by decide
/-- D012 with rows C0 60 over a set pixel (1,0). -/
def drawn : State := after (start 0xD012 fun s => bytesAt 0x300 [0xC0, 0x60] ((s.setI 0x300).setScreen (s.screen.setPixel 0 1 true)))
theorem test_drw_collision : drawn.getV VF = 1 ∧ drawn.screen.pixel 0 0 = true ∧ drawn.screen.pixel 0 1 = false ∧
    drawn.screen.pixel 1 1 = true ∧ drawn.screen.pixel 1 2 = true ∧ drawn.screen.pixel 1 3 = false := by decide
/-- L1-4: the wrap, x = 60, y = 30. -/
def wrapped : State := after (start 0xD013 fun s => bytesAt 0x300 [0xFF, 0xFF, 0x80] (((s.setI 0x300).setV 0 60).setV 1 30))
theorem test_drw_wrap : wrapped.screen.pixel 30 60 = true ∧ wrapped.screen.pixel 31 3 = true ∧ wrapped.screen.pixel 30 4 = false ∧
    wrapped.screen.pixel 0 60 = true ∧ wrapped.getV VF = 0 := by decide

/-! ## Host actions (L2.9) -/

theorem test_keyEvent : (keyEvent 5 (State.reset.setWaitk 16)).getV VF = 5 ∧ (keyEvent 5 (State.reset.setWaitk 16)).waitk = 0 ∧
    keyEvent 5 State.reset = State.reset := by decide
theorem test_loadRom : (hostLoadRom [0xAA, 0xBB, 0xCC] (bytesAt 0x203 [0x77] State.reset)).1.mem.readBytes 0x200 4 =
    [0xAA, 0xBB, 0xCC, 0x77] := by decide
theorem test_construct_again : hostConstruct State.reset = State.reset ∧
    hostConstruct (((State.reset.setV 3 9).setStatus (.faulted .stackUnderflow)).setDraws 7) = State.reset.setDraws 7 := by decide
theorem test_setKeys : (hostSetKeys 0x8001 State.reset).keys = 0x8001 := by decide

/-! ## Witnesses: the hypotheses of each statement can be met, each clause at a boundary of its range -/

theorem witness_DecodeOfEncodeIsTheInstruction : (Instr.sys 0x0E1).wellFormed = true ∧ (Instr.drw 15 15 15).wellFormed = true := by decide
theorem witness_RoundTripLaws : (decodeInstruction 0x5121).type ≠ .invalid ∧
    encodeInstruction ⟨.jp, [⟨.reg, 0⟩, ⟨.constant, 0xFFF⟩]⟩ = .ok 0xBFFF := by decide
theorem witness_InvalidWordsAreExactlyThese : (decodeInstruction 0x800F).type = .invalid ∧ (decodeInstruction 0xE0A0).type = .invalid ∧
    (decodeInstruction 0xF066).type = .invalid := by decide
theorem witness_GroupsDispatchedFurther :
    fieldGroup 0x00E0 = 0x0 ∧ fieldGroup 0x00EF = 0x0 ∧
    (fieldGroup 0x8010 = 0x8 ∧ fieldLSN 0x8010 = 0x0) ∧ (fieldGroup 0x8121 = 0x8 ∧ fieldLSN 0x8121 = 0x1) ∧
    (fieldGroup 0x8232 = 0x8 ∧ fieldLSN 0x8232 = 0x2) ∧ (fieldGroup 0x8343 = 0x8 ∧ fieldLSN 0x8343 = 0x3) ∧
    (fieldGroup 0x8454 = 0x8 ∧ fieldLSN 0x8454 = 0x4) ∧ (fieldGroup 0x8565 = 0x8 ∧ fieldLSN 0x8565 = 0x5) ∧
    (fieldGroup 0x8676 = 0x8 ∧ fieldLSN 0x8676 = 0x6) ∧ (fieldGroup 0x8787 = 0x8 ∧ fieldLSN 0x8787 = 0x7) ∧
    (fieldGroup 0x8FFE = 0x8 ∧ fieldLSN 0x8FFE = 0xE) ∧
    (fieldGroup 0x8FFF = 0x8 ∧ fieldLSN 0x8FFF ∉ [0x0#4, 0x1#4, 0x2#4, 0x3#4, 0x4#4, 0x5#4, 0x6#4, 0x7#4, 0xE#4]) ∧
    (fieldGroup 0xE09E = 0xE ∧ fieldLSB 0xE09E = 0x9E) ∧ (fieldGroup 0xEFA1 = 0xE ∧ fieldLSB 0xEFA1 = 0xA1) ∧
    (fieldGroup 0xE0A0 = 0xE ∧ fieldLSB 0xE0A0 ∉ [0x9E#8, 0xA1#8]) ∧
    (fieldGroup 0xF007 = 0xF ∧ fieldLSB 0xF007 = 0x07) ∧ (fieldGroup 0xF10A = 0xF ∧ fieldLSB 0xF10A = 0x0A) ∧
    (fieldGroup 0xF215 = 0xF ∧ fieldLSB 0xF215 = 0x15) ∧ (fieldGroup 0xF318 = 0xF ∧ fieldLSB 0xF318 = 0x18) ∧
    (fieldGroup 0xF41E = 0xF ∧ fieldLSB 0xF41E = 0x1E) ∧ (fieldGroup 0xF529 = 0xF ∧ fieldLSB 0xF529 = 0x29) ∧
    (fieldGroup 0xF633 = 0xF ∧ fieldLSB 0xF633 = 0x33) ∧ (fieldGroup 0xF755 = 0xF ∧ fieldLSB 0xF755 = 0x55) ∧
    (fieldGroup 0xFF65 = 0xF ∧ fieldLSB 0xFF65 = 0x65) ∧
    (fieldGroup 0xFFFF = 0xF ∧ fieldLSB 0xFFFF ∉ [0x07#8, 0x0A#8, 0x15#8, 0x18#8, 0x1E#8, 0x29#8, 0x33#8, 0x55#8, 0x65#8]) := by
  decide
theorem witness_DecoderFollowsTheOpcodeMap : decode 0x00E1 = .ok (.sys 0x0E1) ∧ selectsRow 0x00E1 (.sys 0) = true ∧
    ∀ i, selectsRow 0x8128 i = false := by
  refine ⟨by decide, by decide, fun i => ?_⟩
  cases i <;> simp [selectsRow, tableRow]
/-- One instruction value for each clause, at the boundary of its range; the first two have a constant out of range
too. -/
theorem witness_EncoderRefuses :
    Instruction.form? ⟨.add, [⟨.index, 0⟩, ⟨.constant, 5⟩]⟩ = none ∧
    (Instruction.form? ⟨.rnd, [⟨.reg, 16⟩, ⟨.constant, 0x100⟩]⟩ = some (.rnd 0 0) ∧ 15 < (16 : Word).toNat) ∧
    (Instruction.form? ⟨.ld, [⟨.index, 1⟩, ⟨.constant, 0x1000⟩]⟩ = some (.ldIAddr 0) ∧
      ArgTag.index ∉ [ArgTag.reg, .constant] ∧ (1 : Word) ≠ 0) ∧
    (Instruction.form? ⟨.call, [⟨.constant, 0x1000⟩]⟩ = some (.call 0) ∧
      (Instr.call 0).constantMax < (0x1000 : Word).toNat) ∧
    (Instruction.form? ⟨.jp, [⟨.reg, 15⟩, ⟨.constant, 0xFFF⟩]⟩ = some (.jpV0Addr 0xFFF) ∧ (15 : Word).toNat ≤ 15 ∧
      (0xFFF : Word).toNat ≤ (Instr.jpV0Addr 0xFFF).constantMax ∧ (15 : Word) ≠ 0) ∧
    Instruction.form? ⟨.sys, [⟨.constant, 0x0EE⟩]⟩ = some (.sys 0x0EE) ∧
    (Instruction.form? ⟨.drw, [⟨.reg, 15⟩, ⟨.reg, 15⟩, ⟨.constant, 15⟩]⟩ = some (.drw 15 15 15) ∧
      (15 : Word).toNat ≤ (Instr.drw 15 15 15).constantMax) := by decide

/-- A state whose tick runs ADD V3,2, and one whose tick runs SYS. -/
theorem witness_StepRunsTheDecodedInstruction :
    ((start 0x7302).fetches ∧ decode (start 0x7302).wordAtPC = .ok (.addVxByte 3 2) ∧
      ∃ t, exec (.addVxByte 3 2) ((start 0x7302).setPC ((start 0x7302).pc + 2)) = .next t ∧ t.status = .running) ∧
    ((start 0x0123).fetches ∧ decode (start 0x0123).wordAtPC = .ok (.sys 0x123) ∧
      ∃ t, exec (.sys 0x123) ((start 0x0123).setPC ((start 0x0123).pc + 2)) = .next t ∧
        t.status = .faulted .sysNotImplemented) := by
  refine ⟨⟨⟨by decide, by decide, by decide, by decide⟩, by decide, _, rfl, by decide⟩,
    ⟨⟨by decide, by decide, by decide, by decide⟩, by decide, _, rfl, by decide⟩⟩
theorem witness_FetchFaultsAndFetchedWord :
    (State.reset.status = .running ∧ State.reset.waitk = 0) ∧ (0x201 : Word).toNat % 2 = 1 ∧
    ((0x1000 : Word).toNat % 2 = 0 ∧ 0xFFE < (0x1000 : Word).toNat) ∧
    ((0xFFE : Word).toNat % 2 = 0 ∧ (0xFFE : Word).toNat ≤ 0xFFE) := by decide
theorem witness_InvalidWordFaults : (start 0x8128).fetches ∧ (decodeInstruction (start 0x8128).wordAtPC).type = .invalid :=
  ⟨⟨by decide, by decide, by decide, by decide⟩, by decide⟩
theorem witness_FaultingTickChangesOnlyStatus : ∃ t, step (start 0x2400 fun s => s.setStack s.stack 16) = .next t ∧
    t.status = .faulted .stackOverflow := ⟨_, rfl, by decide⟩
theorem witness_FaultedMachineStays : (State.reset.setStatus (.faulted .memOutOfBounds)).status = .faulted .memOutOfBounds := by decide
theorem witness_HeldTick : (State.reset.setWaitk 16).status = .running ∧ (State.reset.setWaitk 16).waitk ≠ 0 := by decide
theorem witness_CyclesCountCompletedTicks : ∃ t, step (start 0x1200) = .next t ∧ (start 0x1200).status = .running ∧
    (start 0x1200).waitk = 0 ∧ t.status = .running := ⟨_, rfl, by decide, by decide, by decide⟩
theorem witness_TimerTransfersThroughATick :
    ((start 0xFF07).fetches ∧ decode (start 0xFF07).wordAtPC = .ok (.ldVxDT 15)) ∧
    ((start 0xF015).fetches ∧ decode (start 0xF015).wordAtPC = .ok (.ldDTVx 0)) ∧
    ((start 0xF018).fetches ∧ decode (start 0xF018).wordAtPC = .ok (.ldSTVx 0)) :=
  ⟨⟨⟨by decide, by decide, by decide, by decide⟩, by decide⟩, ⟨⟨by decide, by decide, by decide, by decide⟩, by decide⟩,
    ⟨⟨by decide, by decide, by decide, by decide⟩, by decide⟩⟩
theorem witness_ExecuteOnAnyInstructionValue : Instruction.form? ⟨.invalid, [⟨.constant, 0x8128⟩]⟩ = none ∧
    decode 0xBFFF = .ok (.jpV0Addr 0xFFF) := by decide

theorem witness_RetPopsThePC : (State.reset.setStack State.reset.stack 1).sp.val = (0 : Fin 16).val + 1 ∧
    (State.reset.setStack State.reset.stack 16).sp.val = (15 : Fin 16).val + 1 ∧ State.reset.sp.val = 0 := by decide
theorem witness_CallPushesThePC : State.reset.sp.val = (0 : Fin 16).val ∧
    (State.reset.setStack State.reset.stack 15).sp.val = (15 : Fin 16).val ∧
    (State.reset.setStack State.reset.stack 16).sp.val = 16 := by decide
theorem witness_CallThenRetRestoresThePC : (State.reset.setStack State.reset.stack 15).sp.val < 16 ∧
    ((executed (.call 0x400) (State.reset.setStack State.reset.stack 15)).setV 3 1).sp = 16 := by decide
theorem witness_SkipsOnTwoRegisters : fieldGroup 0x512F = 0x5 ∧ fieldGroup 0x9120 = 0x9 := by decide
theorem witness_SkipsOnKeys : ((State.reset.setV 3 15).getV 3).toNat ≤ 15 ∧ 15 < ((State.reset.setV 3 16).getV 3).toNat := by decide
theorem witness_BcdStore : (State.reset.setI 0xFFD).i.toNat + 2 ≤ 0xFFF ∧ 0xFFF < (State.reset.setI 0xFFE).i.toNat + 2 := by decide
theorem witness_RegisterBlockStore : (State.reset.setI 0xFF0).i.toNat + (15 : Reg).val ≤ 0xFFF ∧
    0xFFF < (State.reset.setI 0xFF1).i.toNat + (15 : Reg).val := by decide
theorem witness_RegisterBlockLoad : (State.reset.setI 0xFFF).i.toNat + (0 : Reg).val ≤ 0xFFF ∧
    0xFFF < (State.reset.setI 0x1000).i.toNat + (0 : Reg).val := by decide
theorem witness_StoreIsSeenByTheNextFetch : (State.reset.setI 0x1FF).i.toNat + (2 : Reg).val ≤ 0xFFF ∧
    (∃ t, exec (.ldATIVx 2) (State.reset.setI 0x1FF) = .next t) ∧ (2 : Reg).val = (1 : Reg).val + 1 ∧ (2 : Reg) ≤ 2 ∧
    (State.reset.setI 0x1FF).pc.toNat = indirectAddr (State.reset.setI 0x1FF) (1 : Reg).val ∧
    (State.reset.setI 0x1FF).pc.toNat % 2 = 0 :=
  ⟨by decide, ⟨_, rfl⟩, by decide, by decide, by decide, by decide⟩

/-- A state in which DRW V0,V1,1 draws the row 0xC0 over a screen whose pixel (0,0) is set. -/
def ready : State := bytesAt 0xFFF [0xC0] ((State.reset.setI 0xFFF).setScreen (State.reset.screen.setPixel 0 0 true))
theorem witness_DrawPixelByPixel : (0 : Nibble) = 0 ∧ ((1 : Nibble) ≠ 0 ∧ 0xFFF < (State.reset.setI 0x1000).i.toNat + (1 : Nibble).toNat - 1) ∧
    (ready.i.toNat + (1 : Nibble).toNat - 1 ≤ 0xFFF) := by decide
/-- Both collision clauses have a state: over a set pixel, and over a clear one. -/
theorem witness_DrawPixelByPixel_collisions :
    (∃ row < (1 : Nibble).toNat, ∃ col < 8, (ready.readByte (indirectAddr ready row)).getLsbD (7 - col) = true ∧
      ready.screen.pixel (screenY (ready.getV 0).toNat row) (screenX (ready.getV 0).toNat col) = true) ∧
    ¬ (∃ row < (1 : Nibble).toNat, ∃ col < 8, (ready.readByte (indirectAddr ready row)).getLsbD (7 - col) = true ∧
      State.reset.screen.pixel (screenY (ready.getV 0).toNat row) (screenX (ready.getV 0).toNat col) = true) := by decide
theorem witness_DrawingTwiceRestoresTheScreen : (1 : Nibble) ≠ 0 ∧ ready.i.toNat + (1 : Nibble).toNat - 1 ≤ 0xFFF ∧
    exec (.drw 0 1 1) ready = .next (executed (.drw 0 1 1) ready) ∧
    (executed (.drw 0 1 1) ready).getV 2 = ready.getV 0 ∧ (executed (.drw 0 1 1) ready).getV 3 = ready.getV 1 ∧
    (∃ row < (1 : Nibble).toNat, ∃ col < 8, (ready.readByte (indirectAddr ready row)).getLsbD (7 - col) = true ∧
      ready.screen.pixel (screenY (ready.getV 1).toNat row) (screenX (ready.getV 0).toNat col) = false) :=
  ⟨by decide, by decide, rfl, by decide, by decide, by decide⟩
/-- The clause without a hit: every 1 bit of the sprite falls on a pixel that was set. -/
def covered : State := bytesAt 0xFFF [0x80] ready
theorem witness_DrawingTwiceRestoresTheScreen_no_hit : (1 : Nibble) ≠ 0 ∧ covered.i.toNat + (1 : Nibble).toNat - 1 ≤ 0xFFF ∧
    exec (.drw 0 1 1) covered = .next (executed (.drw 0 1 1) covered) ∧
    (executed (.drw 0 1 1) covered).getV 0 = covered.getV 0 ∧ (executed (.drw 0 1 1) covered).getV 1 = covered.getV 1 ∧
    ¬ (∃ row < (1 : Nibble).toNat, ∃ col < 8, (covered.readByte (indirectAddr covered row)).getLsbD (7 - col) = true ∧
      covered.screen.pixel (screenY (covered.getV 1).toNat row) (screenX (covered.getV 0).toNat col) = false) :=
  ⟨by decide, by decide, rfl, by decide, by decide, by decide⟩
theorem witness_SecondDrawCollidesForEverySprite : (1 : Nibble) ≠ 0 ∧ ready.i.toNat + (1 : Nibble).toNat - 1 ≤ 0xFFF ∧
    exec (.drw 0 1 1) ready = .next (executed (.drw 0 1 1) ready) ∧
    (executed (.drw 0 1 1) ready).getV 0 = ready.getV 0 ∧ (executed (.drw 0 1 1) ready).getV 1 = ready.getV 1 ∧
    ∃ u, exec (.drw 0 1 1) (executed (.drw 0 1 1) ready) = .next u :=
  ⟨by decide, by decide, rfl, by decide, by decide, ⟨_, rfl⟩⟩

/-- A state on which each part's writer changes it: every clause of the statement is met by some instruction. -/
def busy : State := (((((State.reset.setV 0 7).setI 0x300).setKeys 1).setScreen (State.reset.screen.setPixel 5 5 true)).setPC 0x204).setStack
  State.reset.stack 1
theorem witness_EachPartHasItsWriters :
    (executed (.ldIAddr 1) busy).i ≠ busy.i ∧ (executed (.ldDTVx 0) busy).dt ≠ busy.dt ∧ (executed (.ldSTVx 0) busy).st ≠ busy.st ∧
    (executed (.jp 0x345) busy).pc ≠ busy.pc ∧ (executed .ret busy).sp ≠ busy.sp ∧ (executed (.call 0) busy).stack ≠ busy.stack ∧
    (executed (.ldATIVx 0) busy).readByte 0x300 ≠ busy.readByte 0x300 ∧ (executed (.ldVxK 3) busy).waitk ≠ busy.waitk ∧
    (executed .cls busy).screen ≠ busy.screen ∧ (executed (.rnd 0 1) busy).rngDraws ≠ busy.rngDraws ∧
    (executed (.ldVxByte 3 1) busy).getV 3 ≠ busy.getV 3 ∧ (executed (.shl 1 0) busy).getV 0 ≠ busy.getV 0 ∧
    (executed (.ldVxATI 2) (busy.setI 0)).getV 2 ≠ busy.getV 2 ∧
    (executed (.addVxVy 1 1) (busy.setV 1 0x80)).getV VF ≠ busy.getV VF ∧
    (executed (.sys 0) busy).status ≠ busy.status := by decide
theorem witness_FlagRegisterHasItsWriters : exec (.ldVxByte VF 9) State.reset = .next (executed (.ldVxByte VF 9) State.reset) ∧
    (executed (.ldVxByte VF 9) State.reset).getV VF ≠ State.reset.getV VF := ⟨rfl, by decide⟩
/-- Each of the six causes Execute raises, from a RUNNING state at the boundary of its condition. -/
theorem witness_FaultCausesHaveTheirConditions :
    State.reset.status = .running ∧ (executed (.sys 0) State.reset).status = .faulted .sysNotImplemented ∧
    (executed (.call 0) (State.reset.setStack State.reset.stack 16)).status = .faulted .stackOverflow ∧
    (executed .ret State.reset).status = .faulted .stackUnderflow ∧
    (executed (.drw 0 0 0) State.reset).status = .faulted .drawHeightZero ∧
    (executed (.skp 3) (State.reset.setV 3 16)).status = .faulted .keyOutOfRange ∧
    (executed (.drw 0 0 1) (State.reset.setI 0x1000)).status = .faulted .memOutOfBounds := by decide
theorem witness_StepsLeaveKeysAndTheKeyWait : (∃ t, step (State.reset.setWaitk 1) = .next t) ∧ (State.reset.setWaitk 1).waitk ≠ 0 :=
  ⟨⟨_, rfl⟩, by decide⟩

theorem witness_KeyEventEndsTheWait : 15 ≤ 15 ∧ State.reset.waitk = 0 ∧ (State.reset.setWaitk 16).waitk.val = (15 : Reg).val + 1 ∧
    (State.reset.setWaitk 1).waitk.val = (0 : Reg).val + 1 ∧ 15 < 16 := by decide
theorem witness_LoadRomCopiesTheRom : (List.replicate 3584 (0 : Byte)).length ≤ 4096 - 512 ∧
    4096 - 512 < (List.replicate 3585 (0 : Byte)).length := by
  rw [List.length_replicate, List.length_replicate]
  decide

/-- A state with a full stack that meets the invariant, and a step from it. -/
theorem witness_StepKeepsTheInvariant : (start 0x00EE fun s => s.setStack (Vector.replicate 16 0x1000) 16).Inv ∧
    ∃ t, step (start 0x00EE fun s => s.setStack (Vector.replicate 16 0x1000) 16) = .next t ∧ t.pc = 0x1000 :=
  ⟨⟨by decide, by decide, by decide, by decide⟩, _, rfl, by decide⟩
/-- A state three moves from construction is reachable. -/
theorem witness_ReachableStatesMeetTheInvariant :
    Reachable (after (hostSetKeys 1 (hostLoadRom [0x60, 0x12] State.reset).1)) :=
  .move .tick (.move (.setKeys 1) (.move (.loadRom [0x60, 0x12]) .construct rfl) rfl) rfl
theorem witness_RetLeavesAnEvenPC : (start 0x00EE fun s => s.setStack (Vector.replicate 16 0x1000) 16).Inv ∧
    (start 0x00EE fun s => s.setStack (Vector.replicate 16 0x1000) 16).sp.val ≠ 0 ∧
    ∃ t, exec .ret (start 0x00EE fun s => s.setStack (Vector.replicate 16 0x1000) 16) = .next t ∧ t.pc = 0x1000 :=
  ⟨⟨by decide, by decide, by decide, by decide⟩, by decide, _, rfl, by decide⟩

end Sys2Proof.Tests
end

section
/-! PROOFS about the state (spec/10_state.md): which places the rule of each form writes, as one table tied to Execute by
`exec_effect`; what a tick can do, said once (`step_cases`); and the statements of 10_state.md that follow. -/

namespace Sys2Proof.Machine

/-! ## The places a rule may write -/

/-- What an instruction can write, register by register. KEYS and CYCLES are not among them: no rule writes these
(`exec_keeps_keys_cycles`). -/
inductive Place where
  | reg (r : Reg)
  | index | dt | st | pc | sp | stack | mem | waitk | screen | draws | status

/-- The place holds the same in both states. -/
def Place.same (s t : State) : Place → Prop
  | .reg r => t.getV r = s.getV r
  | .index => t.i = s.i
  | .dt => t.dt = s.dt
  | .st => t.st = s.st
  | .pc => t.pc = s.pc
  | .sp => t.sp = s.sp
  | .stack => t.stack = s.stack
  | .mem => t.mem = s.mem
  | .waitk => t.waitk = s.waitk
  | .screen => t.screen = s.screen
  | .draws => t.rngDraws = s.rngDraws
  | .status => t.status = s.status

/-- Every place but the listed ones holds the same. -/
def writesOnly (ps : List Place) (s t : State) : Prop := ∀ p, p ∉ ps → p.same s t

/-- The registers V0..Vx, as places (R170). -/
def regPlacesUpTo (x : Reg) : List Place := ((List.finRange 16).filter (· ≤ x)).map .reg

/-- The places the rule of a form writes when it raises no fault, in the order of its writes. -/
def placesWritten : Instr → List Place
  | .cls => [.screen]
  | .ret => [.sp, .pc]
  | .sys _ => []
  | .call _ => [.stack, .sp, .pc]
  | .jp _ | .jpV0Addr _ | .seVxByte _ _ | .sneVxByte _ _ | .seVxVy _ _ | .sneVxVy _ _ | .skp _ | .sknp _ => [.pc]
  | .ldVxByte x _ | .addVxByte x _ | .ldVxVy x _ | .or x _ | .and x _ | .xor x _ | .ldVxDT x => [.reg x]
  | .addVxVy x _ => [.reg x, .reg VF]
  | .sub x _ | .subn x _ => [.reg VF, .reg x]
  | .shr x y | .shl x y => [.reg VF, .reg y, .reg x]
  | .rnd x _ => [.draws, .reg x]
  | .drw _ _ _ => [.screen, .reg VF]
  | .ldIAddr _ | .addIVx _ | .ldFVx _ => [.index]
  | .ldVxK _ => [.waitk]
  | .ldDTVx _ => [.dt]
  | .ldSTVx _ => [.st]
  | .ldBVx _ | .ldATIVx _ => [.mem]
  | .ldVxATI x => regPlacesUpTo x

/-- The forms whose rule has a branch that raises a fault (R220). -/
def mayFault : Instr → Bool
  | .ret | .sys _ | .call _ | .drw _ _ _ | .skp _ | .sknp _ | .ldBVx _ | .ldATIVx _ | .ldVxATI _ => true
  | _ => false

@[simp] theorem mem_regPlacesUpTo (x : Reg) (p : Place) : p ∈ regPlacesUpTo x ↔ ∃ r ≤ x, .reg r = p := by
  simp [regPlacesUpTo]

/-! ## One rule per state operation -/

/-- The writes of two operations in a row are those of both. -/
theorem writesOnly.append {ps qs : List Place} {s t u : State} (hst : writesOnly ps s t) (htu : writesOnly qs t u) :
    writesOnly (ps ++ qs) s u := by
  intro p hp
  obtain ⟨hps, hqs⟩ := not_or.mp (mt List.mem_append.mpr hp)
  have first := hst p hps
  have second := htu p hqs
  cases p <;> exact second.trans first

section
variable (s : State)

theorem writesOnly_setV (x : Reg) (b : Byte) : writesOnly [.reg x] s (s.setV x b) := by
  intro p hp
  cases p with
  | reg r => exact (s.getV_setV x r b).trans (if_neg fun e => hp (by simp [e]))
  | _ => rfl

theorem writesOnly_loadRegs (a : Nat) (x : Reg) : writesOnly (regPlacesUpTo x) s (s.loadRegs a x) := by
  intro p hp
  cases p with
  | reg r =>
    have above : ¬ r.val ≤ x.val := fun le => hp ((mem_regPlacesUpTo x _).mpr ⟨r, le, rfl⟩)
    show (s.loadRegs a x).getV r = s.getV r
    rw [State.getV_loadRegs, if_neg above]
  | _ => simp [Place.same]

theorem writesOnly_setI (w : Word) : writesOnly [.index] s (s.setI w) := by
  intro p hp
  cases p with
  | index => simp at hp
  | _ => rfl

theorem writesOnly_setDT (b : Byte) : writesOnly [.dt] s (s.setDT b) := by
  intro p hp
  cases p with
  | dt => simp at hp
  | _ => rfl

theorem writesOnly_setST (b : Byte) : writesOnly [.st] s (s.setST b) := by
  intro p hp
  cases p with
  | st => simp at hp
  | _ => rfl

theorem writesOnly_setPC (w : Word) : writesOnly [.pc] s (s.setPC w) := by
  intro p hp
  cases p with
  | pc => simp at hp
  | _ => rfl

theorem writesOnly_setMem (m : Memory) : writesOnly [.mem] s (s.setMem m) := by
  intro p hp
  cases p with
  | mem => simp at hp
  | _ => rfl

theorem writesOnly_setWaitk (k : Fin 17) : writesOnly [.waitk] s (s.setWaitk k) := by
  intro p hp
  cases p with
  | waitk => simp at hp
  | _ => rfl

theorem writesOnly_setScreen (scr : Screen) : writesOnly [.screen] s (s.setScreen scr) := by
  intro p hp
  cases p with
  | screen => simp at hp
  | _ => rfl

theorem writesOnly_setDraws (n : Nat) : writesOnly [.draws] s (s.setDraws n) := by
  intro p hp
  cases p with
  | draws => simp at hp
  | _ => rfl

theorem writesOnly_takeFault (c : FaultCause) : writesOnly [.status] s (takeFault s c) := by
  intro p hp
  cases p with
  | status => simp at hp
  | _ => rfl

theorem writesOnly_setStack (k : Vector Word 16) (n : Fin 17) : writesOnly [.stack, .sp] s (s.setStack k n) := by
  intro p hp
  cases p with
  | stack | sp => simp at hp
  | _ => rfl

/-- RET leaves the popped slot as it is (D35): SP alone is written. -/
theorem writesOnly_setStack_sp (n : Fin 17) : writesOnly [.sp] s (s.setStack s.stack n) := by
  intro p hp
  cases p with
  | sp => simp at hp
  | _ => rfl

theorem writesOnly_skipIf (c : Bool) : writesOnly [.pc] s (skipIf s c) := by
  rw [skipIf_eq]
  exact writesOnly_setPC s _

/-- A fault entry inside a rule changes STATUS and nothing else (R13, R127). -/
theorem onlyChanges_takeFault (c : FaultCause) : onlyChanges [.status] s (takeFault s c) := by
  intro p hp
  cases p with
  | status => simp at hp
  | regs | stack | mem => exact fun _ => rfl
  | screen => exact fun _ _ => rfl
  | _ => rfl

end

/-! ## What Execute writes -/

/-- The writes of the shifts in their order (R188, R189): VF, then Vy, then Vx. -/
theorem writesOnly_shift (s : State) (x y : Reg) (f : Byte) (g : Byte → Byte) :
    writesOnly [.reg VF, .reg y, .reg x] s (copyReg ((s.setV VF f).setV y (g ((s.setV VF f).getV y))) x y) :=
  ((writesOnly_setV s VF f).append (writesOnly_setV _ y _)).append (writesOnly_setV _ x _)

/-- The rule of `i` in `s` either is a fault entry, of a form that may fault, or completes and writes only the places
the table lists for `i`. -/
def RuleEffect (i : Instr) (s : State) : Prop :=
  (mayFault i = true ∧ ∃ c, exec i s = .next (takeFault s c)) ∨
    ∃ t, exec i s = .next t ∧ writesOnly (placesWritten i) s t

theorem exec_effect (i : Instr) (s : State) : RuleEffect i s := by
  cases i with
  | cls => exact .inr ⟨_, exec_cls s, writesOnly_setScreen s _⟩
  | ret =>
    rcases exec_ret_cases s with ⟨_, _, _, e⟩ | ⟨_, e⟩
    · exact .inr ⟨_, e, (writesOnly_setStack_sp s _).append (writesOnly_setPC _ _)⟩
    · exact .inl ⟨rfl, _, e⟩
  | sys nnn => exact .inl ⟨rfl, _, exec_sys s nnn⟩
  | jp nnn => exact .inr ⟨_, exec_jp s nnn, writesOnly_setPC s _⟩
  | call nnn =>
    rcases exec_call_cases s nnn with ⟨_, e⟩ | ⟨_, e⟩
    · exact .inr ⟨_, e, (writesOnly_setStack s _ _).append (writesOnly_setPC _ _)⟩
    · exact .inl ⟨rfl, _, e⟩
  | seVxByte x kk => exact .inr ⟨_, exec_seVxByte s x kk, writesOnly_skipIf s _⟩
  | sneVxByte x kk => exact .inr ⟨_, exec_sneVxByte s x kk, writesOnly_skipIf s _⟩
  | seVxVy x y => exact .inr ⟨_, exec_seVxVy s x y, writesOnly_skipIf s _⟩
  | ldVxByte x kk => exact .inr ⟨_, exec_ldVxByte s x kk, writesOnly_setV s x _⟩
  | addVxByte x kk => exact .inr ⟨_, exec_addVxByte s x kk, writesOnly_setV s x _⟩
  | ldVxVy x y => exact .inr ⟨_, exec_ldVxVy s x y, writesOnly_setV s x _⟩
  | or x y => exact .inr ⟨_, exec_or s x y, writesOnly_setV s x _⟩
  | and x y => exact .inr ⟨_, exec_and s x y, writesOnly_setV s x _⟩
  | xor x y => exact .inr ⟨_, exec_xor s x y, writesOnly_setV s x _⟩
  | addVxVy x y => exact .inr ⟨_, exec_addVxVy s x y, (writesOnly_setV s x _).append (writesOnly_setV _ VF _)⟩
  | sub x y => exact .inr ⟨_, exec_sub s x y, (writesOnly_setV s VF _).append (writesOnly_setV _ x _)⟩
  | shr x y => exact .inr ⟨_, exec_shr s x y, writesOnly_shift s x y _ (· >>> 1)⟩
  | subn x y => exact .inr ⟨_, exec_subn s x y, (writesOnly_setV s VF _).append (writesOnly_setV _ x _)⟩
  | shl x y => exact .inr ⟨_, exec_shl s x y, writesOnly_shift s x y _ (· <<< 1)⟩
  | sneVxVy x y => exact .inr ⟨_, exec_sneVxVy s x y, writesOnly_skipIf s _⟩
  | ldIAddr nnn => exact .inr ⟨_, exec_ldIAddr s nnn, writesOnly_setI s _⟩
  | jpV0Addr nnn => exact .inr ⟨_, exec_jpV0Addr s nnn, writesOnly_setPC s _⟩
  | rnd x kk => exact .inr ⟨_, exec_rnd s x kk, (writesOnly_setDraws s _).append (writesOnly_setV _ x _)⟩
  | drw x y n =>
    rcases exec_drw_cases s x y n with ⟨_, e⟩ | ⟨_, _, e⟩ | ⟨_, _, e⟩
    · exact .inl ⟨rfl, _, e⟩
    · exact .inr ⟨_, e, (writesOnly_setScreen s _).append (writesOnly_setV _ VF _)⟩
    · exact .inl ⟨rfl, _, e⟩
  | skp x =>
    rcases exec_skp_cases s x with ⟨_, e⟩ | ⟨_, e⟩
    · exact .inr ⟨_, e, writesOnly_skipIf s _⟩
    · exact .inl ⟨rfl, _, e⟩
  | sknp x =>
    rcases exec_sknp_cases s x with ⟨_, e⟩ | ⟨_, e⟩
    · exact .inr ⟨_, e, writesOnly_skipIf s _⟩
    · exact .inl ⟨rfl, _, e⟩
  | ldVxDT x => exact .inr ⟨_, exec_ldVxDT s x, writesOnly_setV s x _⟩
  | ldVxK x => exact .inr ⟨_, exec_ldVxK s x, writesOnly_setWaitk s _⟩
  | ldDTVx x => exact .inr ⟨_, exec_ldDTVx s x, writesOnly_setDT s _⟩
  | ldSTVx x => exact .inr ⟨_, exec_ldSTVx s x, writesOnly_setST s _⟩
  | addIVx x => exact .inr ⟨_, exec_addIVx s x, writesOnly_setI s _⟩
  | ldFVx x => exact .inr ⟨_, exec_ldFVx s x, writesOnly_setI s _⟩
  | ldBVx x =>
    rcases exec_ldBVx_cases s x with ⟨_, e⟩ | ⟨_, e⟩
    · exact .inr ⟨_, e, writesOnly_setMem s _⟩
    · exact .inl ⟨rfl, _, e⟩
  | ldATIVx x =>
    rcases exec_ldATIVx_cases s x with ⟨_, e⟩ | ⟨_, e⟩
    · exact .inr ⟨_, e, writesOnly_setMem s _⟩
    · exact .inl ⟨rfl, _, e⟩
  | ldVxATI x =>
    rcases exec_ldVxATI_cases s x with ⟨_, e⟩ | ⟨_, e⟩
    · exact .inr ⟨_, e, writesOnly_loadRegs s _ x⟩
    · exact .inl ⟨rfl, _, e⟩

/-- `exec_effect` read from the state Execute answered. -/
theorem exec_writes {i : Instr} {s t : State} (h : exec i s = .next t) :
    (mayFault i = true ∧ ∃ c, t = takeFault s c) ∨ writesOnly (placesWritten i) s t := by
  rcases exec_effect i s with ⟨hi, c, e⟩ | ⟨u, e, hu⟩
  · cases h.symm.trans e
    exact .inl ⟨hi, c, rfl⟩
  · cases h.symm.trans e
    exact .inr hu

/-- A place other than STATUS that Execute changed is in the table of the instruction. -/
theorem mem_placesWritten_of_changed {i : Instr} {s t : State} (h : exec i s = .next t) {p : Place} (hp : p ≠ .status)
    (changed : ¬ p.same s t) : p ∈ placesWritten i := by
  by_contra hi
  rcases exec_writes h with ⟨_, c, rfl⟩ | hw
  · exact changed (writesOnly_takeFault s c p (by simpa using hp))
  · exact changed (hw p hi)

/-- No rule writes KEYS or CYCLES (R28, R32). -/
theorem exec_keeps_keys_cycles {i : Instr} {s t : State} (h : exec i s = .next t) :
    t.keys = s.keys ∧ t.cycles = s.cycles := by
  rcases exec_cases h with ⟨c, rfl⟩ | ⟨_, hcycles, hkeys⟩
  · exact ⟨rfl, rfl⟩
  · exact ⟨hkeys, hcycles⟩

/-! ## The writers of each place, read off the table -/

section
variable {i : Instr}

theorem index_writers (h : .index ∈ placesWritten i) :
    (∃ nnn, i = .ldIAddr nnn) ∨ (∃ x, i = .addIVx x) ∨ ∃ x, i = .ldFVx x := by
  cases i <;> simp [placesWritten] at h ⊢

theorem dt_writers (h : .dt ∈ placesWritten i) : ∃ x, i = .ldDTVx x := by
  cases i <;> simp [placesWritten] at h ⊢

theorem st_writers (h : .st ∈ placesWritten i) : ∃ x, i = .ldSTVx x := by
  cases i <;> simp [placesWritten] at h ⊢

theorem pc_writers (h : .pc ∈ placesWritten i) :
    i = .ret ∨ (∃ nnn, i = .jp nnn ∨ i = .jpV0Addr nnn ∨ i = .call nnn) ∨
      (∃ x kk, i = .seVxByte x kk ∨ i = .sneVxByte x kk) ∨ (∃ x y, i = .seVxVy x y ∨ i = .sneVxVy x y) ∨
      ∃ x, i = .skp x ∨ i = .sknp x := by
  cases i <;> simp [placesWritten] at h ⊢

theorem sp_writers (h : .sp ∈ placesWritten i) : i = .ret ∨ ∃ nnn, i = .call nnn := by
  cases i <;> simp [placesWritten] at h ⊢

theorem stack_writers (h : .stack ∈ placesWritten i) : ∃ nnn, i = .call nnn := by
  cases i <;> simp [placesWritten] at h ⊢

theorem mem_writers (h : .mem ∈ placesWritten i) : (∃ x, i = .ldBVx x) ∨ ∃ x, i = .ldATIVx x := by
  cases i <;> simp [placesWritten] at h ⊢

theorem waitk_writers (h : .waitk ∈ placesWritten i) : ∃ x, i = .ldVxK x := by
  cases i <;> simp [placesWritten] at h ⊢

theorem screen_writers (h : .screen ∈ placesWritten i) : i = .cls ∨ ∃ x y n, i = .drw x y n := by
  cases i <;> simp [placesWritten] at h ⊢

theorem draws_writers (h : .draws ∈ placesWritten i) : ∃ x kk, i = .rnd x kk := by
  cases i <;> simp [placesWritten] at h ⊢

theorem status_not_mem_placesWritten : .status ∉ placesWritten i := by
  cases i <;> simp [placesWritten]

/-- A register is written as the named destination, as the Y of a shift, by the block load, or as the flag VF (R20, R21). -/
theorem reg_writers {r : Reg} (h : .reg r ∈ placesWritten i) :
    (∃ kk, i = .ldVxByte r kk ∨ i = .addVxByte r kk ∨ i = .rnd r kk) ∨
      (∃ y, i = .ldVxVy r y ∨ i = .or r y ∨ i = .and r y ∨ i = .xor r y ∨ i = .addVxVy r y ∨ i = .sub r y ∨
        i = .subn r y ∨ i = .shr r y ∨ i = .shl r y) ∨
      (∃ x, i = .shr x r ∨ i = .shl x r) ∨
      i = .ldVxDT r ∨ (∃ x, r ≤ x ∧ i = .ldVxATI x) ∨
      (r = VF ∧ ((∃ x y, i = .addVxVy x y ∨ i = .sub x y ∨ i = .subn x y ∨ i = .shr x y ∨ i = .shl x y) ∨
        ∃ x y n, i = .drw x y n)) := by
  cases i with
  | ldVxByte x _ | addVxByte x _ | rnd x _ | ldVxVy x _ | or x _ | and x _ | xor x _ | ldVxDT x =>
    obtain rfl : r = x := by simpa [placesWritten] using h
    simp
  | addVxVy x _ | sub x _ | subn x _ =>
    obtain rfl | rfl : r = x ∨ r = VF := by simpa [placesWritten, or_comm] using h
    · simp
    · simp
  | shr x y | shl x y =>
    obtain rfl | rfl | rfl : r = VF ∨ r = y ∨ r = x := by simpa [placesWritten] using h
    · simp
    · simp
    · simp
  | drw _ _ _ =>
    obtain rfl : r = VF := by simpa [placesWritten] using h
    simp
  | ldVxATI x =>
    have le : r ≤ x := by simpa [placesWritten] using h
    simp [le]
  | _ => simp [placesWritten] at h

/-- The forms with a fault (R220), as a list of cases. -/
theorem mayFault_forms (h : mayFault i = true) :
    i = .ret ∨ (∃ nnn, i = .sys nnn ∨ i = .call nnn) ∨ (∃ x y n, i = .drw x y n) ∨
      ∃ x, i = .skp x ∨ i = .sknp x ∨ i = .ldBVx x ∨ i = .ldATIVx x ∨ i = .ldVxATI x := by
  cases i <;> simp [mayFault] at h ⊢

end

/-- Settles O48: a changed place is in the table of the instruction (`mem_placesWritten_of_changed`), and the table
lists each place for its writers alone. -/
theorem eachPartHasItsWriters : Obligations.EachPartHasItsWriters := by
  intro i s t h
  have written {p : Place} (hp : p ≠ .status) : ¬ p.same s t → p ∈ placesWritten i := mem_placesWritten_of_changed h hp
  obtain ⟨hkeys, hcycles⟩ := exec_keeps_keys_cycles h
  refine ⟨fun hi => index_writers (written nofun hi), fun hdt => dt_writers (written nofun hdt),
    fun hst => st_writers (written nofun hst), fun hpc => pc_writers (written nofun hpc),
    fun hsp => sp_writers (written nofun hsp), fun hstack => stack_writers (written nofun hstack),
    fun a ha => mem_writers (written nofun fun hmem => ha (congrArg (Memory.read · a) hmem)), hkeys,
    fun hwaitk => waitk_writers (written nofun hwaitk), fun hscreen => screen_writers (written nofun hscreen),
    fun hdraws => draws_writers (written nofun hdraws), hcycles, fun r hr => reg_writers (written nofun hr), ?_⟩
  intro hstatus
  rcases exec_writes h with ⟨hi, c, rfl⟩ | hw
  · exact ⟨⟨c, rfl⟩, onlyChanges_takeFault s c, mayFault_forms hi⟩
  · exact absurd (hw .status status_not_mem_placesWritten) hstatus

/-! ## What a tick can do -/

/-- The end of a tick (R125 to R127): Execute answered a next state, and the tick completes or faults precisely. -/
theorem endTick_cases {s t : State} {o : Host.Outcome State Fault Refusal} (h : endTick s o = .next t) :
    ∃ u, o = .next u ∧ ((u.status = .running ∧ t = completeTick u) ∨
      ∃ c, u.status = .faulted c ∧ t = takeFault s c) := by
  cases o with
  | next u =>
    refine ⟨u, rfl, ?_⟩
    cases hu : u.status with
    | running =>
      cases ((endTick_next s u).1 hu).symm.trans h
      exact .inl ⟨rfl, rfl⟩
    | faulted c =>
      cases ((endTick_next s u).2 c hu).symm.trans h
      exact .inr ⟨c, rfl, rfl⟩
  | fault r => cases h
  | refused r => cases h

/-- The inversion of the step (R120): a FAULTED machine stays, a waiting machine has a held tick, and otherwise the
tick faults precisely, at the fetch or in Execute, or completes the instruction it fetched. -/
theorem step_cases {s t : State} (h : step s = .next t) :
    ((∃ c, s.status = .faulted c) ∧ t = s) ∨
    (s.status = .running ∧ s.waitk ≠ 0 ∧ t = heldTick s) ∨
    (s.status = .running ∧ s.waitk = 0 ∧
      ((∃ c, fetchInstr s = .error c ∧ t = takeFault s c) ∨
       ∃ i u, fetchInstr s = .ok i ∧ exec i (advancePC s) = .next u ∧
        ((u.status = .running ∧ t = completeTick u) ∨ ∃ c, u.status = .faulted c ∧ t = takeFault s c))) := by
  cases hs : s.status with
  | faulted c =>
    simp only [step, hs] at h
    cases h
    exact .inl ⟨⟨c, rfl⟩, rfl⟩
  | running =>
    by_cases hw : s.waitk = 0
    · rw [step_of_running hs hw] at h
      refine .inr (.inr ⟨rfl, hw, ?_⟩)
      cases hf : fetchInstr s with
      | error c =>
        rw [hf] at h
        cases h
        exact .inl ⟨c, rfl, rfl⟩
      | ok i =>
        rw [hf] at h
        obtain ⟨u, hu, hend⟩ := endTick_cases h
        exact .inr ⟨i, u, rfl, hu, hend⟩
    · simp only [step, hs, if_neg hw] at h
      cases h
      exact .inr (.inl ⟨rfl, hw, rfl⟩)

/-- A held tick changes at most the timers (R129). -/
theorem heldTick_keeps_keys_waitk (s : State) : (heldTick s).keys = s.keys ∧ (heldTick s).waitk = s.waitk := by
  unfold heldTick
  split <;> exact ⟨rfl, rfl⟩

/-- Settles O51: the only steps of a waiting machine are the held tick and the step of a FAULTED machine, and no rule
writes KEYS. -/
theorem stepsLeaveKeysAndTheKeyWait : Obligations.StepsLeaveKeysAndTheKeyWait := by
  intro s t h
  rcases step_cases h with ⟨_, rfl⟩ | ⟨_, _, rfl⟩ | ⟨_, hw, hend⟩
  · exact ⟨rfl, fun _ => rfl⟩
  · obtain ⟨hkeys, hwaitk⟩ := heldTick_keeps_keys_waitk s
    exact ⟨hkeys, fun _ => hwaitk⟩
  · refine ⟨?_, fun hne => absurd hw hne⟩
    rcases hend with ⟨c, _, rfl⟩ | ⟨i, u, _, hu, ⟨_, rfl⟩ | ⟨c, _, rfl⟩⟩
    · rfl
    · exact (exec_keeps_keys_cycles hu).1
    · rfl

end Sys2Proof.Machine
end

section
/-! PROOFS about memory (spec/20_memory.md): the fetch (R53, R121), its word and its two faults. -/

namespace Sys2Proof.Machine

/-! ## The fetch -/

/-- The fetch from an odd PC (R121, D2). -/
theorem fetchWord_of_odd {s : State} (h : s.pc.toNat % 2 = 1) : fetchWord s = .error .misalignedFetch :=
  if_pos h

/-- The fetch from an even PC above 0xFFE (R121, D3). -/
theorem fetchWord_of_above {s : State} (he : s.pc.toNat % 2 = 0) (h : 0xFFE < s.pc.toNat) :
    fetchWord s = .error .fetchOutOfBounds := by
  have notOdd : ¬ s.pc.toNat % 2 = 1 := by omega
  exact (if_neg notOdd).trans (if_pos h)

/-- A fault of fetch and decode is the fault of the whole tick, before anything is executed (R120, R127). -/
theorem tickFaults_of_fetchInstr_error {s : State} {c : FaultCause} (hs : s.status = .running) (hw : s.waitk = 0)
    (h : fetchInstr s = .error c) : tickFaults s c := by
  have faults : step s = .next (takeFault s c) := by
    rw [step_of_running hs hw, h]
    rfl
  exact ⟨takeFault s c, faults, rfl, onlyChanges_takeFault s c⟩

theorem fetchInstr_of_fetchWord_error {s : State} {c : FaultCause} (h : fetchWord s = .error c) :
    fetchInstr s = .error c := by
  simp only [fetchInstr, h]

/-- Settles O10: each fault of the fetch is that of the tick (`tickFaults_of_fetchInstr_error`), and from a PC with
neither fault `fetchWord_ok` gives the word. -/
theorem fetchFaultsAndFetchedWord : Obligations.FetchFaultsAndFetchedWord := by
  intro s hs hw
  have fetchFaults {c : FaultCause} (h : fetchWord s = .error c) : tickFaults s c :=
    tickFaults_of_fetchInstr_error hs hw (fetchInstr_of_fetchWord_error h)
  exact ⟨fun odd => fetchFaults (fetchWord_of_odd odd), fun even above => fetchFaults (fetchWord_of_above even above),
    fun even within => fetchWord_ok s even within⟩

/-! ## The word placed for the next step -/

theorem fetchable_iff (pc : Word) : fetchable pc = true ↔ pc.toNat % 2 = 0 ∧ pc.toNat ≤ 0xFFE := by
  simp [fetchable]

/-- `withFetchWord` leaves PC where a word can be fetched from (R121). -/
theorem fetchable_withFetchWord_pc (s : State) (nbits w : Nat) : fetchable (s.withFetchWord nbits w).pc = true := by
  simp only [State.withFetchWord]
  split
  · assumption
  · decide

/-- The two bytes of a word written to memory are read back as the word (R53). -/
theorem wordOfBytes_read_writeBytes (m : Memory) (a : Nat) (w : Word) :
    wordOfBytes ((m.writeBytes a (bytesOfWord w)).read a) ((m.writeBytes a (bytesOfWord w)).read (a + 1)) = w := by
  have high : (m.writeBytes a (bytesOfWord w)).read a = fieldMSB w :=
    Memory.read_writeBytes_inside (bytesOfWord w) m a 0 Nat.zero_lt_two
  have low : (m.writeBytes a (bytesOfWord w)).read (a + 1) = fieldLSB w :=
    Memory.read_writeBytes_inside (bytesOfWord w) m a 1 Nat.one_lt_two
  rw [high, low, wordOfBytes_fields]

theorem wordAtPC_withFetchWord (s : State) (nbits w : Nat) :
    (s.withFetchWord nbits w).wordAtPC = BitVec.ofNat 16 (w % 2 ^ nbits) :=
  wordOfBytes_read_writeBytes s.mem (s.withFetchWord nbits w).pc.toNat _

/-- Settles O9: `withFetchWord` makes the machine RUNNING and not waiting, at a PC that can be fetched from, and the two
bytes read back there are those of the word. -/
theorem placedWordIsFetched : Obligations.PlacedWordIsFetched := by
  intro s w
  obtain ⟨even, within⟩ := (fetchable_iff _).mp (fetchable_withFetchWord_pc s 16 w)
  refine ⟨⟨rfl, rfl, even, within⟩, (wordAtPC_withFetchWord s 16 w).trans ?_⟩
  exact BitVec.eq_of_toNat_eq (by simp)

end Sys2Proof.Machine
end

section
/-! PROOFS about the encoding (spec/30_encoding.md): the decoder group by group (R81, R83, R85, R86), the words it
rejects (R87), and INVALID in the (type, args) model as the decoder's rejection. -/

namespace Sys2Proof

section
variable {w : Word} {e : DecodeError} {i : Instr}

/-! ## The groups that are dispatched further -/

theorem decode_of_group0 (h : fieldGroup w = 0x0#4) : decode w = .ok (decodeGroup0 w) := by
  simp only [decode, h]

theorem decode_of_group8 (h : fieldGroup w = 0x8#4) : decode w = decodeGroup8 w := by
  simp only [decode, h]

theorem decode_of_groupE (h : fieldGroup w = 0xE#4) : decode w = decodeGroupE w := by
  simp only [decode, h]

theorem decode_of_groupF (h : fieldGroup w = 0xF#4) : decode w = decodeGroupF w := by
  simp [decode, h]

/-- Every other group decodes each of its words (R80). -/
theorem decode_ok_of_group (h8 : fieldGroup w ≠ 0x8#4) (hE : fieldGroup w ≠ 0xE#4) (hF : fieldGroup w ≠ 0xF#4) :
    ∃ i, decode w = .ok i := by
  unfold decode
  split
  case h_9 h => exact absurd h h8
  case h_15 h => exact absurd h hE
  case h_16 =>
    simp only [imp_false] at *
    bv_omega
  all_goals exact ⟨_, rfl⟩

/-! ## The rejected words (R87) -/

/-- The arms of the named values answer a form; the last arm is the only rejection, and it keeps the word (R83, R87). -/
theorem decodeGroup8_eq_error_iff : decodeGroup8 w = .error e ↔
    fieldLSN w ∉ [0x0#4, 0x1#4, 0x2#4, 0x3#4, 0x4#4, 0x5#4, 0x6#4, 0x7#4, 0xE#4] ∧ .invalid w = e := by
  unfold decodeGroup8
  split
  case h_10 => simp_all
  all_goals simp [*]

theorem decodeGroupE_eq_error_iff : decodeGroupE w = .error e ↔
    fieldLSB w ∉ [0x9E#8, 0xA1#8] ∧ .invalid w = e := by
  unfold decodeGroupE
  split
  case h_3 => simp_all
  all_goals simp [*]

theorem decodeGroupF_eq_error_iff : decodeGroupF w = .error e ↔
    fieldLSB w ∉ [0x07#8, 0x0A#8, 0x15#8, 0x18#8, 0x1E#8, 0x29#8, 0x33#8, 0x55#8, 0x65#8] ∧ .invalid w = e := by
  unfold decodeGroupF
  split
  case h_10 => simp_all
  all_goals simp [*]

/-- The decoder rejects a word exactly when the word is of group 8, E or F and its group rejects it. -/
theorem decode_eq_error_iff : decode w = .error e ↔
    (fieldGroup w = 0x8#4 ∧ decodeGroup8 w = .error e) ∨ (fieldGroup w = 0xE#4 ∧ decodeGroupE w = .error e) ∨
      (fieldGroup w = 0xF#4 ∧ decodeGroupF w = .error e) := by
  by_cases h8 : fieldGroup w = 0x8#4
  · simp [decode_of_group8 h8, h8]
  by_cases hE : fieldGroup w = 0xE#4
  · simp [decode_of_groupE hE, hE]
  by_cases hF : fieldGroup w = 0xF#4
  · simp [decode_of_groupF hF, hF]
  · obtain ⟨i, hi⟩ := decode_ok_of_group h8 hE hF
    simp [hi, h8, hE, hF]

/-- The decoder's one error keeps the word (R87). -/
theorem invalid_eq_of_decode_error (h : decode w = .error e) : .invalid w = e := by
  rcases decode_eq_error_iff.mp h with ⟨-, h8⟩ | ⟨-, hE⟩ | ⟨-, hF⟩
  · exact (decodeGroup8_eq_error_iff.mp h8).2
  · exact (decodeGroupE_eq_error_iff.mp hE).2
  · exact (decodeGroupF_eq_error_iff.mp hF).2

/-! ## The (type, args) model -/

theorem decodeInstruction_of_ok (h : decode w = .ok i) : decodeInstruction w = i.toInstruction := by
  simp only [decodeInstruction, h]

theorem decodeInstruction_of_error (h : decode w = .error e) : decodeInstruction w = ⟨.invalid, [⟨.constant, w⟩]⟩ := by
  simp only [decodeInstruction, h]

/-- None of the 35 forms has the type INVALID (R75, R100). -/
theorem Instr.toInstruction_type_ne_invalid (i : Instr) : i.toInstruction.type ≠ .invalid := by
  cases i <;> nofun

theorem decodeInstruction_type_eq_invalid_iff :
    (decodeInstruction w).type = .invalid ↔ decode w = .error (.invalid w) := by
  cases h : decode w with
  | ok i => simp [decodeInstruction_of_ok h, i.toInstruction_type_ne_invalid]
  | error e => simp [decodeInstruction_of_error h, ← invalid_eq_of_decode_error h]

end

/-- The values of LSN that group 8 does not name (R83), listed. -/
theorem mem_unnamed_LSN_iff (n : Nibble) : n ∈ [0x8#4, 0x9#4, 0xA#4, 0xB#4, 0xC#4, 0xD#4, 0xF#4] ↔
    n ∉ [0x0#4, 0x1#4, 0x2#4, 0x3#4, 0x4#4, 0x5#4, 0x6#4, 0x7#4, 0xE#4] := by
  revert n
  decide

/-- Settles O4: INVALID is the decoder's rejection (`decodeInstruction_type_eq_invalid_iff`), and `decode_eq_error_iff`
with the rejections of its three groups says which words are rejected. -/
theorem invalidWordsAreExactlyThese : Obligations.InvalidWordsAreExactlyThese := by
  intro w
  refine ⟨?_, fun hw => ?_⟩
  · rw [decodeInstruction_type_eq_invalid_iff, decode_eq_error_iff, decodeGroup8_eq_error_iff, decodeGroupE_eq_error_iff,
      decodeGroupF_eq_error_iff, mem_unnamed_LSN_iff]
    simp only [and_true]
    rfl
  · rw [decodeInstruction_of_error (decodeInstruction_type_eq_invalid_iff.mp hw)]

/-- Settles O5: the word of a group is decoded by its dispatch (`decode_of_group8` and the like), which is evaluated at
each named sub-opcode and rejects every other (`decodeGroup8_eq_error_iff` and the like). -/
theorem groupsDispatchedFurther : Obligations.GroupsDispatchedFurther := by
  intro w
  refine ⟨decode_of_group0, fun h8 => ?_, fun hE => ?_, fun hF => ?_⟩
  · rw [decode_of_group8 h8]
    refine ⟨?_, ?_, ?_, ?_, ?_, ?_, ?_, ?_, ?_, fun h => decodeGroup8_eq_error_iff.mpr ⟨h, rfl⟩⟩
    all_goals
      intro h
      simp only [decodeGroup8, h]
      rfl
  · rw [decode_of_groupE hE]
    refine ⟨?_, ?_, fun h => decodeGroupE_eq_error_iff.mpr ⟨h, rfl⟩⟩
    all_goals
      intro h
      simp only [decodeGroupE, h]
      rfl
  · rw [decode_of_groupF hF]
    refine ⟨?_, ?_, ?_, ?_, ?_, ?_, ?_, ?_, ?_, fun h => decodeGroupF_eq_error_iff.mpr ⟨h, rfl⟩⟩
    all_goals
      intro h
      simp only [decodeGroupF, h]
      rfl

end Sys2Proof
end

section
/-! PROOFS about the execution cycle (spec/40_execution_cycle.md): the tick that runs a decoded instruction, and its
end. -/

namespace Sys2Proof.Machine

/-! ## The tick that fetches -/

/-- Fetch and decode from a state whose tick fetches a valid word (R121, R122). -/
theorem fetchInstr_of_decode {s : State} {i : Instr} (hs : s.fetches) (hi : decode s.wordAtPC = .ok i) :
    fetchInstr s = .ok i := by
  obtain ⟨_, _, even, within⟩ := hs
  have word : fetchWord s = .ok s.wordAtPC := fetchWord_ok s even within
  simp only [fetchInstr, word, hi]

/-- The tick that fetches `i` is Execute of `i` after the advance of PC, and then the end of the tick (R120, R123). -/
theorem step_of_decode {s : State} {i : Instr} (hs : s.fetches) (hi : decode s.wordAtPC = .ok i) :
    step s = endTick s (exec i (s.setPC (s.pc + 2))) := by
  have fetched : fetchInstr s = .ok i := fetchInstr_of_decode hs hi
  obtain ⟨running, notWaiting, _⟩ := hs
  rw [step_of_running running notWaiting, fetched]
  rfl

/-! ## The end of the tick -/

/-- The saturation at 0 is the subtraction of natural numbers (R125). -/
theorem toNat_countDown (b : Byte) : (countDown b).toNat = b.toNat - 1 := by
  unfold countDown
  split
  case isTrue h => simp [h]
  case isFalse h => exact BitVec.toNat_sub_of_le (by bv_omega)

/-- The end of a completed tick writes the timers and CYCLES alone (R125, R126). -/
theorem onlyChanges_completeTick (s : State) : onlyChanges [.dt, .st, .cycles] s (completeTick s) := by
  intro p hp
  cases p with
  | dt | st | cycles => simp at hp
  | regs | stack | mem => exact fun _ => rfl
  | screen => exact fun _ _ => rfl
  | _ => rfl

/-- Settles O8: the step is the end of the tick after Execute (`step_of_decode`), which completes the state Execute
answered or takes its fault in the state the tick began in (`endTick_next`). -/
theorem stepRunsTheDecodedInstruction : Obligations.StepRunsTheDecodedInstruction := by
  intro s t i hs hi ht
  have ends : step s = endTick s (.next t) := (step_of_decode hs hi).trans (congrArg (endTick s) ht)
  obtain ⟨completes, faults⟩ := endTick_next s t
  constructor
  · intro running
    exact ⟨completeTick t, ends.trans (completes running), toNat_countDown t.dt, toNat_countDown t.st, rfl,
      onlyChanges_completeTick t⟩
  · intro c faulted
    exact ⟨takeFault s c, ends.trans (faults c faulted), rfl, onlyChanges_takeFault s c⟩

end Sys2Proof.Machine
end

section
/-! PROOFS about control flow (spec/41_control_flow.md): the jumps, and the skips on a byte. -/

namespace Sys2Proof.Machine

/-! ## The target of a jump -/

/-- The address of a jump is taken as it stands (R143). -/
theorem toNat_addrOperand (nnn : Addr) : (addrOperand nnn).toNat = nnn.toNat :=
  BitVec.toNat_setWidth_of_le (by decide)

/-- The sum of JP V0 stays below 2^16, so it does not wrap (R144). -/
theorem toNat_jumpV0Target (s : State) (nnn : Addr) : (jumpV0Target s nnn).toNat = nnn.toNat + (s.getV 0).toNat := by
  have operand : (addrOperand nnn).toNat = nnn.toNat := toNat_addrOperand nnn
  have v0 : ((s.getV 0).setWidth 16).toNat = (s.getV 0).toNat := BitVec.toNat_setWidth_of_le (by decide)
  have sum : (addrOperand nnn).toNat + ((s.getV 0).setWidth 16).toNat < 2 ^ 16 := by omega
  rw [jumpV0Target, BitVec.toNat_add_of_lt sum, operand, v0]

/-! ## Writes of PC alone -/

theorem onlyChanges_setPC (s : State) (w : Word) : onlyChanges [.pc] s (s.setPC w) := by
  intro p hp
  cases p with
  | pc => simp at hp
  | regs | stack | mem => exact fun _ => rfl
  | screen => exact fun _ _ => rfl
  | _ => rfl

/-- A form whose rule is a skip on `c` (R140), read as a skip on the proposition that `c` tests. -/
theorem skips_of_exec {i : Instr} {s : State} {c : Bool} {p : Prop} [Decidable p] (rule : exec i s = .next (skipIf s c))
    (test : c = true ↔ p) :
    ∃ t, exec i s = .next t ∧ t.pc = (if p then s.pc + 2 else s.pc) ∧ onlyChanges [.pc] s t := by
  rw [skipIf_eq] at rule
  exact ⟨_, rule, if_congr test rfl rfl, onlyChanges_setPC s _⟩

/-! ## The statements of 41_control_flow.md -/

/-- Settles O21: both forms write PC alone (`onlyChanges_setPC`), and the sum of JP V0 is that of the natural numbers
(`toNat_jumpV0Target`), 0xFFF + 0xFF at most. -/
theorem jumpsSetThePC : Obligations.JumpsSetThePC := by
  intro s nnn
  have target : (jumpV0Target s nnn).toNat = nnn.toNat + (s.getV 0).toNat := toNat_jumpV0Target s nnn
  have bound : (jumpV0Target s nnn).toNat ≤ 0x10FE := by omega
  exact ⟨⟨_, exec_jp s nnn, toNat_addrOperand nnn, onlyChanges_setPC s _⟩,
    ⟨_, exec_jpV0Addr s nnn, target, bound, onlyChanges_setPC s _⟩⟩

/-- Settles O24: SE skips on the test of equality, SNE on its negation (`skips_of_exec`). -/
theorem skipsOnAByte : Obligations.SkipsOnAByte := by
  intro s x kk
  exact ⟨skips_of_exec (exec_seVxByte s x kk) beq_iff_eq, skips_of_exec (exec_sneVxByte s x kk) bne_iff_ne⟩

end Sys2Proof.Machine
end

section
/-! PROOFS about the loads (spec/42_loads.md): the loads of one register and of I, and the timer transfers through a
whole tick. -/

namespace Sys2Proof.Machine

/-! ## The timer transfers through a whole tick -/

/-- A tick whose instruction raises no fault ends in the completion of the state Execute answered (R120, R125). -/
theorem step_eq_completeTick {s t : State} {i : Instr} (hs : s.fetches) (hi : decode s.wordAtPC = .ok i)
    (rule : exec i (s.setPC (s.pc + 2)) = .next t) (running : t.status = .running) : step s = .next (completeTick t) := by
  rw [step_of_decode hs hi, rule]
  exact (endTick_next s t).1 running

/-- The end of a tick writes no register (R125, R126). -/
@[simp] theorem getV_completeTick (s : State) (x : Reg) : (completeTick s).getV x = s.getV x := rfl

/-- Settles O16: each tick completes what Execute answered (`step_eq_completeTick`), and its end counts down whatever the
rule left in each timer (`toNat_countDown`). -/
theorem timerTransfersThroughATick : Obligations.TimerTransfersThroughATick := by
  intro s x hs
  have ⟨running, _⟩ := hs
  refine ⟨fun hi => ?_, fun hi => ?_, fun hi => ?_⟩
  · have ticks := step_eq_completeTick hs hi (exec_ldVxDT _ x) running
    exact ⟨_, ticks, by simp, toNat_countDown s.dt, toNat_countDown s.st⟩
  · have ticks := step_eq_completeTick hs hi (exec_ldDTVx _ x) running
    exact ⟨_, ticks, toNat_countDown (s.getV x), toNat_countDown s.st⟩
  · have ticks := step_eq_completeTick hs hi (exec_ldSTVx _ x) running
    exact ⟨_, ticks, toNat_countDown (s.getV x), toNat_countDown s.dt⟩

/-! ## Writes of one register, and of I alone -/

theorem regsKeptBut_setV (s : State) (x : Reg) (b : Byte) : regsKeptBut [x] s (s.setV x b) := by
  intro r hr
  have other : r ≠ x := by simpa using hr
  exact (s.getV_setV x r b).trans (if_neg other)

theorem onlyChanges_setV (s : State) (x : Reg) (b : Byte) : onlyChanges [.regs] s (s.setV x b) := by
  intro p hp
  cases p with
  | regs => simp at hp
  | stack | mem => exact fun _ => rfl
  | screen => exact fun _ _ => rfl
  | _ => rfl

theorem onlyChanges_setI (s : State) (w : Word) : onlyChanges [.index] s (s.setI w) := by
  intro p hp
  cases p with
  | index => simp at hp
  | regs | stack | mem => exact fun _ => rfl
  | screen => exact fun _ _ => rfl
  | _ => rfl

/-- A form whose rule is one write of `V[x]` leaves the value there, and leaves the rest alone (R20). -/
theorem loads_of_exec {i : Instr} {s : State} {x : Reg} {b : Byte} (rule : exec i s = .next (s.setV x b)) :
    ∃ t, exec i s = .next t ∧ t.getV x = b ∧ regsKeptBut [x] s t ∧ onlyChanges [.regs] s t :=
  ⟨_, rule, (s.getV_setV x x b).trans (if_pos rfl), regsKeptBut_setV s x b, onlyChanges_setV s x b⟩

/-- Settles O27: the rule of each of the three forms is one write of Vx (`loads_of_exec`). -/
theorem loadsOfARegister : Obligations.LoadsOfARegister := by
  intro s x y kk
  exact ⟨loads_of_exec (exec_ldVxByte s x kk), loads_of_exec (exec_ldVxVy s x y), loads_of_exec (exec_ldVxDT s x)⟩

/-- The mask of LD F keeps the low nibble, and five times a nibble does not wrap (R167). -/
theorem toNat_fontAddr (v : Byte) : (fontAddr v).toNat = 5 * (v.toNat % 16) := by
  have nibble : (v &&& 0x0F).toNat = v.toNat % 16 := by
    rw [BitVec.toNat_and]
    exact Nat.and_two_pow_sub_one_eq_mod v.toNat 4
  simp only [fontAddr, nibble, BitVec.toNat_ofNat]
  omega

/-- Settles O28: both forms write I alone (`onlyChanges_setI`), the address as it stands (`toNat_addrOperand`) or that of
the glyph (`toNat_fontAddr`). -/
theorem loadsOfTheIndexRegister : Obligations.LoadsOfTheIndexRegister := by
  intro s x nnn
  exact ⟨⟨_, exec_ldIAddr s nnn, toNat_addrOperand nnn, onlyChanges_setI s _⟩,
    ⟨_, exec_ldFVx s x, toNat_fontAddr (s.getV x), onlyChanges_setI s _⟩⟩

end Sys2Proof.Machine
end

section
/-! PROOFS about arithmetic and logic (spec/43_arithmetic.md): the immediate addition, and OR, AND and XOR. -/

namespace Sys2Proof.Machine

/-- Settles O35: the rule is one write of Vx (`loads_of_exec`), and the sum of bytes wraps modulo 256. -/
theorem addImmediate : Obligations.AddImmediate := by
  intro s x kk
  obtain ⟨t, rule, sum, frame⟩ := loads_of_exec (exec_addVxByte s x kk)
  exact ⟨t, rule, sum ▸ BitVec.toNat_add (s.getV x) kk, frame⟩

/-- A form whose rule is one write of `V[x]`, the bits of `V[x]` and `V[y]` combined by `op`, leaves those bits there
and leaves the rest alone (R183, R184, R185). -/
theorem combinesBits_of_exec {i : Instr} {s : State} {x y : Reg} {c : Byte} {op : Bool → Bool → Bool}
    (rule : exec i s = .next (s.setV x c))
    (bits : ∀ b, c.getLsbD b = op ((s.getV x).getLsbD b) ((s.getV y).getLsbD b)) :
    ∃ t, exec i s = .next t ∧
      (∀ b < 8, (t.getV x).getLsbD b = op ((s.getV x).getLsbD b) ((s.getV y).getLsbD b)) ∧
      regsKeptBut [x] s t ∧ onlyChanges [.regs] s t := by
  obtain ⟨t, next, value, frame⟩ := loads_of_exec rule
  exact ⟨t, next, fun b _ => value ▸ bits b, frame⟩

/-- Settles O38: the rule of each form is one write of Vx (`combinesBits_of_exec`), and bit `b` of an OR, AND or XOR of
bytes is that of the two bits `b`. -/
theorem logicOnRegisters : Obligations.LogicOnRegisters := by
  intro s x y
  exact ⟨combinesBits_of_exec (exec_or s x y) fun _ => BitVec.getLsbD_or,
    combinesBits_of_exec (exec_and s x y) fun _ => BitVec.getLsbD_and,
    combinesBits_of_exec (exec_xor s x y) fun _ => BitVec.getLsbD_xor⟩

end Sys2Proof.Machine
end

section
/-! PROOFS about the display (spec/44_display.md): CLS; DRW pixel by pixel, with its collision and its faults; and two
draws of one sprite at one place. -/

namespace Sys2Proof.Machine

/-! ## Writes of the screen, writes in a row, and fault entries -/

/-- Screens are equal when their pixels are (R30). -/
theorem Screen.ext_pixel {a b : Screen} (h : ∀ y x, a.pixel y x = b.pixel y x) : a = b :=
  Vector.ext fun y hy => Vector.ext fun x hx => h ⟨y, hy⟩ ⟨x, hx⟩

theorem onlyChanges_setScreen (s : State) (scr : Screen) : onlyChanges [.screen] s (s.setScreen scr) := by
  intro p hp
  cases p with
  | screen => simp at hp
  | regs | stack | mem => exact fun _ => rfl
  | _ => rfl

/-- The frame of two operations in a row lists the parts of both. -/
theorem onlyChanges.append {ps qs : List Part} {s t u : State} (hst : onlyChanges ps s t) (htu : onlyChanges qs t u) :
    onlyChanges (ps ++ qs) s u := by
  intro p hp
  obtain ⟨hps, hqs⟩ := not_or.mp (mt List.mem_append.mpr hp)
  have first := hst p hps
  have second := htu p hqs
  cases p with
  | regs | stack | mem => exact fun k => (second k).trans (first k)
  | screen => exact fun y x => (second y x).trans (first y x)
  | _ => exact second.trans first

/-- A rule that ends in a fault entry raises that fault, precisely (R13). -/
theorem ruleFaults_of_exec {i : Instr} {s : State} {c : FaultCause} (rule : exec i s = .next (takeFault s c)) :
    ruleFaults i s c := ⟨_, rule, rfl, onlyChanges_takeFault s c⟩

/-- Settles O44: the rule writes SCREEN alone (`onlyChanges_setScreen`), and every pixel of the cleared screen is 0
(`pixel_clear`). -/
theorem clearScreen : Obligations.ClearScreen := by
  intro s
  exact ⟨_, exec_cls s, pixel_clear, onlyChanges_setScreen s _⟩

/-! ## The sprite that DRW draws -/

/-- The pixels that DRW draws: the sprite of `n` bytes from I at (V[x], V[y]) (R201). -/
def drwDots (s : State) (x y : Reg) (n : Nibble) : List Dot :=
  spriteDots (s.getV x).toNat (s.getV y).toNat n.toNat fun row => s.readByte (indirectAddr s row)

section
variable (s : State) (x y : Reg) (n : Nibble)

theorem drawResult_eq_foldl : drawResult s x y n.toNat = (drwDots s x y n).foldl drawDot (s.screen, false) :=
  drawSprite_eq_foldl _ _ _ _ _

/-- A sprite has at most 15 rows, so it covers no pixel twice. -/
theorem drwDots_apart : (drwDots s x y n).Pairwise fun p q => ¬ samePlace p q :=
  spriteDots_apart _ _ _ _ (by omega)

/-- A drawn pixel is flipped by a 1 bit on it (R201). -/
theorem pixel_drawResult (py : Fin 32) (px : Fin 64) :
    (drawResult s x y n.toNat).1.pixel py px = (s.screen.pixel py px ^^ decide ((py, px, true) ∈ drwDots s x y n)) := by
  rw [drawResult_eq_foldl]
  exact pixel_foldl_drawDot _ _ (drwDots_apart s x y n) py px

/-- The draw collides when a 1 bit falls on a set pixel (R204). -/
theorem collision_drawResult :
    (drawResult s x y n.toNat).2 = true ↔ ∃ py px, (py, px, true) ∈ drwDots s x y n ∧ s.screen.pixel py px = true := by
  rw [drawResult_eq_foldl, collision_foldl_drawDot _ _ (drwDots_apart s x y n)]
  simp

/-- Where the 1 bits of the sprite fall (R202, R203). -/
theorem mem_drwDots_iff {py : Fin 32} {px : Fin 64} :
    (py, px, true) ∈ drwDots s x y n ↔
      ∃ row < n.toNat, ∃ col < 8, py.val = ((s.getV y).toNat + row) % 32 ∧ px.val = ((s.getV x).toNat + col) % 64 ∧
        (s.readByte (indirectAddr s row)).getLsbD (7 - col) = true := by
  simp only [drwDots, mem_spriteDots, Prod.mk.injEq, Fin.ext_iff, screenY, screenX, Fin.val_ofNat, spriteBit,
    eq_comm (a := true)]

/-- A property of the pixels under the 1 bits of the sprite, row by row and column by column. -/
theorem exists_mem_drwDots_iff {p : Fin 32 → Fin 64 → Prop} :
    (∃ py px, (py, px, true) ∈ drwDots s x y n ∧ p py px) ↔
      ∃ row < n.toNat, ∃ col < 8, (s.readByte (indirectAddr s row)).getLsbD (7 - col) = true ∧
        p (screenY (s.getV y).toNat row) (screenX (s.getV x).toNat col) := by
  simp only [drwDots, mem_spriteDots, Prod.mk.injEq, spriteBit]
  constructor
  · rintro ⟨_, _, ⟨row, hr, col, hc, rfl, rfl, bit⟩, hp⟩
    exact ⟨row, hr, col, hc, bit.symm, hp⟩
  · rintro ⟨row, hr, col, hc, bit, hp⟩
    exact ⟨_, _, ⟨row, hr, col, hc, rfl, rfl, bit.symm⟩, hp⟩

/-! ## The rule of DRW -/

/-- The state after a draw that raises no fault: the screen and VF are written (R201). -/
def afterDrw : State := (s.setScreen (drawResult s x y n.toNat).1).setV VF (collisionFlag (drawResult s x y n.toNat).2)

theorem afterDrw_screen : (afterDrw s x y n).screen = (drawResult s x y n.toNat).1 := rfl

theorem regsKeptBut_afterDrw : regsKeptBut [VF] s (afterDrw s x y n) := regsKeptBut_setV (s.setScreen _) VF _

theorem onlyChanges_afterDrw : onlyChanges [.screen, .regs] s (afterDrw s x y n) :=
  (onlyChanges_setScreen s _).append (onlyChanges_setV _ VF _)

/-- VF after a draw, by a proposition that says when the draw collides (R204). -/
theorem getV_VF_afterDrw {p : Prop} (h : (drawResult s x y n.toNat).2 = true ↔ p) :
    (p → (afterDrw s x y n).getV VF = 1) ∧ (¬ p → (afterDrw s x y n).getV VF = 0) := by
  have vf : (afterDrw s x y n).getV VF = collisionFlag (drawResult s x y n.toNat).2 := by simp [afterDrw]
  rw [vf, ← h]
  cases (drawResult s x y n.toNat).2 <;> decide

theorem exec_drw_of_zero : exec (.drw x y 0) s = .next (takeFault s .drawHeightZero) := rfl

variable {n} (nonzero : n ≠ 0)
include nonzero

theorem exec_drw_of_outside (outside : 0xFFF < s.i.toNat + n.toNat - 1) :
    exec (.drw x y n) s = .next (takeFault s .memOutOfBounds) := by
  have size : memSize = 4096 := rfl
  rcases exec_drw_cases s x y n with ⟨zero, _⟩ | ⟨_, fits, _⟩ | ⟨_, _, rule⟩
  · exact absurd (BitVec.eq_of_toNat_eq zero) nonzero
  · omega
  · exact rule

theorem exec_drw_of_inside (inside : s.i.toNat + n.toNat - 1 ≤ 0xFFF) :
    exec (.drw x y n) s = .next (afterDrw s x y n) := by
  have size : memSize = 4096 := rfl
  rcases exec_drw_cases s x y n with ⟨zero, _⟩ | ⟨_, _, rule⟩ | ⟨_, leaves, _⟩
  · exact absurd (BitVec.eq_of_toNat_eq zero) nonzero
  · exact rule
  · omega

end

/-- Settles O45: the faults are the first and the last case of the rule (`exec_drw_of_zero`, `exec_drw_of_outside`); in
the middle one the 1 bits of the sprite flip the pixels they fall on (`pixel_drawResult`), and VF collects those that
fall on a set pixel (`collision_drawResult`). -/
theorem drawPixelByPixel : Obligations.DrawPixelByPixel := by
  intro s x y n
  refine ⟨?_, fun nonzero outside => ruleFaults_of_exec (exec_drw_of_outside s x y nonzero outside), ?_⟩
  · rintro rfl
    exact ruleFaults_of_exec (exec_drw_of_zero s x y)
  · intro nonzero inside
    obtain ⟨one, zero⟩ := getV_VF_afterDrw s x y n ((collision_drawResult s x y n).trans (exists_mem_drwDots_iff s x y n))
    refine ⟨_, exec_drw_of_inside s x y nonzero inside, fun py px => ?_, one, zero, regsKeptBut_afterDrw s x y n,
      onlyChanges_afterDrw s x y n⟩
    rw [← mem_drwDots_iff, afterDrw_screen, pixel_drawResult]
    by_cases under : (py, px, true) ∈ drwDots s x y n
    · simp [under]
    · simp [under]

/-! ## Drawing twice -/

section
variable {s : State} {x y x' y' : Reg} {n : Nibble}

/-- A draw leaves I and memory alone, so the second draw, at the same coordinates, draws the same pixels. -/
theorem drwDots_afterDrw (hx : (afterDrw s x y n).getV x' = s.getV x) (hy : (afterDrw s x y n).getV y' = s.getV y) :
    drwDots (afterDrw s x y n) x' y' n = drwDots s x y n := by
  unfold drwDots
  rw [hx, hy]
  rfl

variable (again : drwDots (afterDrw s x y n) x' y' n = drwDots s x y n)
include again

/-- Each pixel is flipped twice or not at all (R205). -/
theorem drawResult_afterDrw_screen : (drawResult (afterDrw s x y n) x' y' n.toNat).1 = s.screen := by
  apply Screen.ext_pixel
  intro py px
  rw [pixel_drawResult, again, afterDrw_screen, pixel_drawResult]
  simp

/-- Under a 1 bit the first draw has flipped the pixel, so the second collides where the first found it clear. -/
theorem collision_drawResult_afterDrw :
    (drawResult (afterDrw s x y n) x' y' n.toNat).2 = true ↔
      ∃ py px, (py, px, true) ∈ drwDots s x y n ∧ s.screen.pixel py px = false := by
  rw [collision_drawResult, again]
  refine exists₂_congr fun py px => and_congr_right fun under => ?_
  rw [afterDrw_screen, pixel_drawResult]
  simp [under]

end

/-- Settles O46: both draws flip the same pixels (`drwDots_afterDrw`), so the second restores the screen
(`drawResult_afterDrw_screen`) and collides where the first found a pixel clear (`collision_drawResult_afterDrw`). -/
theorem drawingTwiceRestoresTheScreen : Obligations.DrawingTwiceRestoresTheScreen := by
  intro s t x y x' y' n nonzero inside first hx hy
  obtain rfl : afterDrw s x y n = t := by simpa using (exec_drw_of_inside s x y nonzero inside).symm.trans first
  have again := drwDots_afterDrw hx hy
  have hit := (collision_drawResult_afterDrw again).trans (exists_mem_drwDots_iff s x y n)
  exact ⟨_, exec_drw_of_inside _ x' y' nonzero inside, drawResult_afterDrw_screen again, getV_VF_afterDrw _ x' y' n hit⟩

end Sys2Proof.Machine
end

section
/-! PROOFS about the encoding (spec/30_encoding.md), continued: decode after encode and encode after decode on the 35 forms
(R104), the encoder of the (type, args) model with its checks (R103), and the opcode map (R100). -/

namespace Sys2Proof

/-! ## Decode after encode (R104 (b)) -/

/-- SYS takes neither of the two words of group 0 that are other forms (R81, R103). -/
theorem formatAddr_ne_of_free {nnn : Addr} (free : sysAddrTaken nnn = false) :
    formatAddr 0x0#4 nnn ≠ 0x00E0#16 ∧ formatAddr 0x0#4 nnn ≠ 0x00EE#16 := by
  obtain ⟨notE0, notEE⟩ : nnn ≠ 0x0E0#12 ∧ nnn ≠ 0x0EE#12 := by simpa [sysAddrTaken] using free
  exact ⟨fun e => notE0 ((fieldAddr_formatAddr _ nnn).symm.trans (congrArg fieldAddr e)),
    fun e => notEE ((fieldAddr_formatAddr _ nnn).symm.trans (congrArg fieldAddr e))⟩

theorem decodeGroup0_formatAddr {nnn : Addr} (free : sysAddrTaken nnn = false) :
    decodeGroup0 (formatAddr 0x0#4 nnn) = .sys nnn := by
  obtain ⟨notCls, notRet⟩ := formatAddr_ne_of_free free
  simp [decodeGroup0, notCls, notRet]

/-- Settles O2: the decoder reads in each field what the form's format puts there (`fieldGroup_formatAddr` and the
like), so the dispatch on the group and on the sub-opcode leads back to the form. -/
theorem decodeOfEncodeIsTheInstruction : Obligations.DecodeOfEncodeIsTheInstruction := by
  intro i wellFormed
  cases i with
  | cls | ret => rfl
  | sys nnn =>
    have free : sysAddrTaken nnn = false := by simpa [Instr.wellFormed] using wellFormed
    simp [encode, decode, decodeGroup0_formatAddr free]
  | jp _ | call _ | ldIAddr _ | jpV0Addr _ => simp [encode, decode]
  | seVxByte _ _ | sneVxByte _ _ | ldVxByte _ _ | addVxByte _ _ | rnd _ _ => simp [encode, decode]
  | seVxVy _ _ | sneVxVy _ _ | drw _ _ _ => simp [encode, decode]
  | ldVxVy _ _ | or _ _ | and _ _ | xor _ _ | addVxVy _ _ | sub _ _ | shr _ _ | subn _ _ | shl _ _ =>
    simp [encode, decode, decodeGroup8]
  | skp _ | sknp _ => simp [encode, decode, decodeGroupE]
  | ldVxDT _ | ldVxK _ | ldDTVx _ | ldSTVx _ | addIVx _ | ldFVx _ | ldBVx _ | ldATIVx _ | ldVxATI _ =>
    simp [encode, decode, decodeGroupF]

/-! ## A word from its fields (R72, R73) -/

section
variable {w : Word} {g : Nibble}

theorem formatAddr_of_fields (group : fieldGroup w = g) : formatAddr g (fieldAddr w) = w :=
  group ▸ formatAddr_fields w

theorem formatXByte_of_fields {kk : Byte} (group : fieldGroup w = g) (lsb : fieldLSB w = kk) :
    formatXByte g (fieldX w) kk = w :=
  group ▸ lsb ▸ formatXByte_fields w

theorem formatXYNibble_of_fields {n : Nibble} (group : fieldGroup w = g) (lsn : fieldLSN w = n) :
    formatXYNibble g (fieldX w) (fieldY w) n = w :=
  group ▸ lsn ▸ formatXYNibble_fields w

end

/-! ## Encode after decode (R104 (c)) -/

/-- The word that the encoder gives for what `w` decodes to: groups 5 and 9 get the low nibble 0 (R82, D23). -/
def withoutUnusedNibble (w : Word) : Word :=
  if (fieldGroup w = 0x5 ∨ fieldGroup w = 0x9) ∧ fieldLSN w ≠ 0 then w &&& 0xFFF0 else w

section
variable {w : Word} {i : Instr}

theorem withoutUnusedNibble_of_group (h5 : fieldGroup w ≠ 0x5#4) (h9 : fieldGroup w ≠ 0x9#4) :
    withoutUnusedNibble w = w :=
  if_neg fun h => h.1.elim h5 h9

/-- The mask 0xFFF0 keeps every nibble but the last. -/
theorem and_0xFFF0 (w : Word) : w &&& 0xFFF0 = formatXYNibble (fieldGroup w) (fieldX w) (fieldY w) 0x0#4 := by
  have ones (n : Nibble) : n &&& 0xF#4 = n := BitVec.and_allOnes
  have group : fieldGroup (w &&& 0xFFF0) = fieldGroup w := BitVec.extractLsb'_and.trans (ones _)
  have x : fieldX (w &&& 0xFFF0) = fieldX w := congrArg BitVec.toFin (BitVec.extractLsb'_and.trans (ones _))
  have y : fieldY (w &&& 0xFFF0) = fieldY w := congrArg BitVec.toFin (BitVec.extractLsb'_and.trans (ones _))
  have lsn : fieldLSN (w &&& 0xFFF0) = 0x0#4 := BitVec.extractLsb'_and.trans BitVec.and_zero
  rw [← group, ← x, ← y, formatXYNibble_of_fields rfl lsn]

/-- In groups 5 and 9 the low nibble becomes 0, whatever it was. -/
theorem withoutUnusedNibble_of_group5_or_9 (h : fieldGroup w = 0x5#4 ∨ fieldGroup w = 0x9#4) :
    withoutUnusedNibble w = formatXYNibble (fieldGroup w) (fieldX w) (fieldY w) 0x0#4 := by
  by_cases zero : fieldLSN w = 0#4
  · exact (if_neg fun used => used.2 zero).trans (formatXYNibble_of_fields rfl zero).symm
  · exact (if_pos ⟨h, zero⟩).trans (and_0xFFF0 w)

/-- The word is an encoding of the form, which has no address that SYS cannot have (R81, R103). -/
def IsEncodingOf (w : Word) (i : Instr) : Prop := i.wellFormed = true ∧ encode i = w

theorem isEncodingOf_decodeGroup0 (group : fieldGroup w = 0x0#4) : IsEncodingOf w (decodeGroup0 w) := by
  have fields : formatAddr 0x0#4 (fieldAddr w) = w := formatAddr_of_fields group
  unfold decodeGroup0
  split
  case isTrue cls => exact ⟨rfl, cls.symm⟩
  case isFalse notCls =>
    split
    case isTrue ret => exact ⟨rfl, ret.symm⟩
    case isFalse notRet =>
      have free : fieldAddr w ≠ 0x0E0#12 ∧ fieldAddr w ≠ 0x0EE#12 :=
        ⟨fun e => notCls (by rw [← fields, e]; rfl), fun e => notRet (by rw [← fields, e]; rfl)⟩
      exact ⟨by simp [Instr.wellFormed, sysAddrTaken, free], fields⟩

theorem isEncodingOf_of_decodeGroup8 (group : fieldGroup w = 0x8#4) (h : decodeGroup8 w = .ok i) : IsEncodingOf w i := by
  unfold decodeGroup8 at h
  split at h
  case h_10 => cases h
  all_goals
    cases h
    exact ⟨rfl, formatXYNibble_of_fields group ‹_›⟩

theorem isEncodingOf_of_decodeGroupE (group : fieldGroup w = 0xE#4) (h : decodeGroupE w = .ok i) : IsEncodingOf w i := by
  unfold decodeGroupE at h
  split at h
  case h_3 => cases h
  all_goals
    cases h
    exact ⟨rfl, formatXByte_of_fields group ‹_›⟩

theorem isEncodingOf_of_decodeGroupF (group : fieldGroup w = 0xF#4) (h : decodeGroupF w = .ok i) : IsEncodingOf w i := by
  unfold decodeGroupF at h
  split at h
  case h_10 => cases h
  all_goals
    cases h
    exact ⟨rfl, formatXByte_of_fields group ‹_›⟩

/-- The inversion of the decoder: what a word decodes to is encoded by the word, or, in groups 5 and 9, by the word with
the low nibble 0. -/
theorem isEncodingOf_of_decode (h : decode w = .ok i) : IsEncodingOf (withoutUnusedNibble w) i := by
  by_cases low : fieldGroup w = 0x5#4 ∨ fieldGroup w = 0x9#4
  · rw [withoutUnusedNibble_of_group5_or_9 low]
    rcases low with group | group
    · simp only [decode, group] at h ⊢
      cases h
      exact ⟨rfl, rfl⟩
    · simp only [decode, group] at h ⊢
      cases h
      exact ⟨rfl, rfl⟩
  · obtain ⟨h5, h9⟩ := not_or.mp low
    rw [withoutUnusedNibble_of_group h5 h9]
    unfold decode at h
    split at h
    case h_1 group =>
      cases h
      exact isEncodingOf_decodeGroup0 group
    case h_2 group | h_3 group | h_11 group | h_12 group =>
      cases h
      exact ⟨rfl, formatAddr_of_fields group⟩
    case h_4 group | h_5 group | h_7 group | h_8 group | h_13 group =>
      cases h
      exact ⟨rfl, formatXByte_of_fields group rfl⟩
    case h_6 group => exact absurd group h5
    case h_9 group => exact isEncodingOf_of_decodeGroup8 group h
    case h_10 group => exact absurd group h9
    case h_14 group =>
      cases h
      exact ⟨rfl, formatXYNibble_of_fields group rfl⟩
    case h_15 group => exact isEncodingOf_of_decodeGroupE group h
    case h_16 => exact isEncodingOf_of_decodeGroupF (by simp only [imp_false] at *; bv_omega) h

end

/-! ## The (type, args) value of a form (R100, R103) -/

/-- The facts of Laws/PerInstr.lean, for every form. -/
theorem sourceForm (i : Instr) : Laws.SourceForm.Statement i := by
  cases i with
  | cls => exact Laws.SourceForm.cls
  | ret => exact Laws.SourceForm.ret
  | sys nnn => exact Laws.SourceForm.sys nnn
  | jp nnn => exact Laws.SourceForm.jp nnn
  | call nnn => exact Laws.SourceForm.call nnn
  | seVxByte x kk => exact Laws.SourceForm.seVxByte x kk
  | sneVxByte x kk => exact Laws.SourceForm.sneVxByte x kk
  | seVxVy x y => exact Laws.SourceForm.seVxVy x y
  | ldVxByte x kk => exact Laws.SourceForm.ldVxByte x kk
  | addVxByte x kk => exact Laws.SourceForm.addVxByte x kk
  | ldVxVy x y => exact Laws.SourceForm.ldVxVy x y
  | or x y => exact Laws.SourceForm.or x y
  | and x y => exact Laws.SourceForm.and x y
  | xor x y => exact Laws.SourceForm.xor x y
  | addVxVy x y => exact Laws.SourceForm.addVxVy x y
  | sub x y => exact Laws.SourceForm.sub x y
  | shr x y => exact Laws.SourceForm.shr x y
  | subn x y => exact Laws.SourceForm.subn x y
  | shl x y => exact Laws.SourceForm.shl x y
  | sneVxVy x y => exact Laws.SourceForm.sneVxVy x y
  | ldIAddr nnn => exact Laws.SourceForm.ldIAddr nnn
  | jpV0Addr nnn => exact Laws.SourceForm.jpV0Addr nnn
  | rnd x kk => exact Laws.SourceForm.rnd x kk
  | drw x y n => exact Laws.SourceForm.drw x y n
  | skp x => exact Laws.SourceForm.skp x
  | sknp x => exact Laws.SourceForm.sknp x
  | ldVxDT x => exact Laws.SourceForm.ldVxDT x
  | ldVxK x => exact Laws.SourceForm.ldVxK x
  | ldDTVx x => exact Laws.SourceForm.ldDTVx x
  | ldSTVx x => exact Laws.SourceForm.ldSTVx x
  | addIVx x => exact Laws.SourceForm.addIVx x
  | ldFVx x => exact Laws.SourceForm.ldFVx x
  | ldBVx x => exact Laws.SourceForm.ldBVx x
  | ldATIVx x => exact Laws.SourceForm.ldATIVx x
  | ldVxATI x => exact Laws.SourceForm.ldVxATI x

/-- The encoder on the (type, args) value of a form: only the SYS check can fail (R103). -/
theorem encodeInstruction_toInstruction {i : Instr} (wellFormed : i.wellFormed = true) :
    encodeInstruction i.toInstruction = .ok (encode i) := by
  obtain ⟨form, -, -, checks⟩ := sourceForm i
  simp only [Bool.and_eq_true] at checks
  obtain ⟨⟨⟨registers, valueless⟩, constants⟩, jump⟩ := checks
  simp [encodeInstruction, form, registers, valueless, constants, jump, wellFormed]

/-! ## The encoder's checks (R103) -/

/-- Check 2 of R103, as the statements write it. -/
theorem registersInRange_iff {args : List Argument} :
    registersInRange args = true ↔ ∀ a ∈ args, a.tag = .reg → a.value.toNat ≤ 15 := by
  simp [registersInRange, imp_iff_not_or]

/-- Check 3 of R103. -/
theorem valuelessAreZero_iff {args : List Argument} :
    valuelessAreZero args = true ↔ ∀ a ∈ args, a.tag ∉ [ArgTag.reg, .constant] → a.value = 0 := by
  simp [valuelessAreZero, imp_iff_not_or]

/-- Check 4 of R103. -/
theorem constantsInRange_iff {max : Nat} {args : List Argument} :
    constantsInRange max args = true ↔ ∀ a ∈ args, a.tag = .constant → a.value.toNat ≤ max := by
  simp [constantsInRange, imp_iff_not_or]

/-- The SYS and JP cases of check 5 of R103: SYS 0x0E0, SYS 0x0EE, and JP Vr with r not 0. -/
def IsSpecialCase (i : Instr) (args : List Argument) : Prop :=
  i = .sys 0x0E0 ∨ i = .sys 0x0EE ∨ ((∃ nnn, i = .jpV0Addr nnn) ∧ ∃ a ∈ args, a.tag = .reg ∧ a.value ≠ 0)

theorem not_isSpecialCase_iff {i : Instr} {args : List Argument} :
    ¬ IsSpecialCase i args ↔ (i.wellFormed && jumpRegisterIsZero i args) = true := by
  cases i with
  | sys nnn => simp [IsSpecialCase, Instr.wellFormed, jumpRegisterIsZero, sysAddrTaken]
  | jpV0Addr nnn => simp [IsSpecialCase, Instr.wellFormed, jumpRegisterIsZero, imp_iff_not_or]
  | _ => simp [IsSpecialCase, Instr.wellFormed, jumpRegisterIsZero]

/-- What the encoder accepts, and the word it gives (R102, R103). -/
theorem encodeInstruction_eq_ok_iff {ins : Instruction} {w : Word} : encodeInstruction ins = .ok w ↔
    ∃ i, ins.form? = some i ∧ registersInRange ins.args = true ∧ valuelessAreZero ins.args = true ∧
      constantsInRange i.constantMax ins.args = true ∧ i.wellFormed = true ∧ jumpRegisterIsZero i ins.args = true ∧
      encode i = w := by
  unfold encodeInstruction
  cases form : ins.form? with
  | none => simp
  | some i =>
    simp [ite_eq_iff, and_assoc]

/-! ## Reading an instruction value back (R104 (b)) -/

theorem argV_regOfValue {v : Word} (h : v.toNat ≤ 15) : argV (regOfValue v) = ⟨.reg, v⟩ := by
  have value : BitVec.ofNat 16 (regOfValue v).val = v :=
    BitVec.eq_of_toNat_eq (by simp [regOfValue]; omega)
  rw [argV, value]

theorem argV_zero : argV 0 = ⟨.reg, 0#16⟩ := rfl

theorem argConst_setWidth {n : Nat} {v : Word} (h : v.toNat ≤ 2 ^ n - 1) :
    argConst (v.setWidth n) = ⟨.constant, v⟩ := by
  have fits : v.toNat < 2 ^ n := by have := Nat.two_pow_pos n; omega
  have value : (v.setWidth n).setWidth 16 = v := by
    apply BitVec.eq_of_toNat_eq
    simp only [BitVec.toNat_setWidth, Nat.mod_eq_of_lt fits, Nat.mod_eq_of_lt v.isLt]
  rw [argConst, value]

/-- An instruction value that passes the checks of R103 is the (type, args) value of its form: each argument is read
back from the operand it gave (`argV_regOfValue`, `argConst_setWidth`), and a valueless tag holds 0. -/
theorem toInstruction_of_form? {ins : Instruction} {i : Instr} (form : ins.form? = some i)
    (registers : registersInRange ins.args = true) (valueless : valuelessAreZero ins.args = true)
    (constants : constantsInRange i.constantMax ins.args = true) (jump : jumpRegisterIsZero i ins.args = true) :
    i.toInstruction = ins := by
  rw [registersInRange_iff] at registers
  rw [valuelessAreZero_iff] at valueless
  rw [constantsInRange_iff] at constants
  unfold Instruction.form? at form
  split at form
  case h_36 => cases form
  all_goals
    cases form
    simp_all [jumpRegisterIsZero, Instr.toInstruction, Instr.constantMax, argV_regOfValue, argConst_setWidth, argTag,
      argV_zero]

/-! ## The three laws of R104 -/

/-- Law (c): encoding what a word decodes to gives the word back, up to the unused nibble. -/
theorem encodeInstruction_of_decode {w : Word} {i : Instr} (h : decode w = .ok i) :
    encodeInstruction (decodeInstruction w) = .ok (withoutUnusedNibble w) := by
  obtain ⟨wellFormed, word⟩ := isEncodingOf_of_decode h
  rw [decodeInstruction_of_ok h, encodeInstruction_toInstruction wellFormed, word]

theorem decodeInstruction_encode {i : Instr} (wellFormed : i.wellFormed = true) :
    decodeInstruction (encode i) = i.toInstruction :=
  decodeInstruction_of_ok (decodeOfEncodeIsTheInstruction i wellFormed)

/-- A word that is not INVALID decodes to a form (R87). -/
theorem exists_decode_of_type_ne_invalid {w : Word} (valid : (decodeInstruction w).type ≠ .invalid) :
    ∃ i, decode w = .ok i := by
  cases h : decode w with
  | ok i => exact ⟨i, rfl⟩
  | error e => exact absurd (by rw [decodeInstruction_of_error h]) valid

/-- Settles O3: law (c) is `encodeInstruction_of_decode`, whose word is an encoding of the form the word decodes to, so
that law (a) follows by O2; law (b) reads the accepted value back (`toInstruction_of_form?`) after O2. -/
theorem roundTripLaws : Obligations.RoundTripLaws := by
  refine ⟨fun w valid => ?_, fun ins w accepted => ?_, fun w valid => ?_⟩
  · obtain ⟨i, h⟩ := exists_decode_of_type_ne_invalid valid
    obtain ⟨wellFormed, word⟩ := isEncodingOf_of_decode h
    refine ⟨_, encodeInstruction_of_decode h, ?_⟩
    rw [← word, decodeInstruction_encode wellFormed, decodeInstruction_of_ok h]
  · obtain ⟨i, form, registers, valueless, constants, wellFormed, jump, rfl⟩ := encodeInstruction_eq_ok_iff.mp accepted
    rw [decodeInstruction_encode wellFormed, toInstruction_of_form? form registers valueless constants jump]
  · obtain ⟨i, h⟩ := exists_decode_of_type_ne_invalid valid
    exact encodeInstruction_of_decode h

/-! ## What the encoder refuses (R103) -/

section
variable {ins : Instruction} {i : Instr}

theorem encodeInstruction_of_no_form (h : ins.form? = none) : encodeInstruction ins = .error .unencodable := by
  simp only [encodeInstruction, h]

variable (form : ins.form? = some i)
include form

theorem encodeInstruction_of_register (h : registersInRange ins.args = false) :
    encodeInstruction ins = .error .unencodable := by
  simp [encodeInstruction, form, h]

/-- The errors of checks 2 and 3 are the same, so their order does not show. -/
theorem encodeInstruction_of_valueless (h : valuelessAreZero ins.args = false) :
    encodeInstruction ins = .error .unencodable := by
  simp [encodeInstruction, form, h]

variable (registers : registersInRange ins.args = true) (valueless : valuelessAreZero ins.args = true)
include registers valueless

theorem encodeInstruction_of_constant (h : constantsInRange i.constantMax ins.args = false) :
    encodeInstruction ins = .error .constantOutOfRange := by
  simp [encodeInstruction, form, registers, valueless, h]

variable (constants : constantsInRange i.constantMax ins.args = true)
include constants

theorem encodeInstruction_of_special (h : IsSpecialCase i ins.args) : encodeInstruction ins = .error .unencodable := by
  have fails : (i.wellFormed && jumpRegisterIsZero i ins.args) = false := by
    simpa using mt not_isSpecialCase_iff.mpr (not_not.mpr h)
  simp [encodeInstruction, form, registers, valueless, constants, fails]

theorem encodeInstruction_of_not_special (h : ¬ IsSpecialCase i ins.args) : encodeInstruction ins = .ok (encode i) := by
  have passes : (i.wellFormed && jumpRegisterIsZero i ins.args) = true := not_isSpecialCase_iff.mp h
  simp [encodeInstruction, form, registers, valueless, constants, passes]

end

/-- Settles O7: the error of the first check of R103 that fails is the encoder's answer (`encodeInstruction_of_register`
and the like), the checks being read as the statement writes them (`registersInRange_iff` and the like). -/
theorem encoderRefuses : Obligations.EncoderRefuses := by
  refine ⟨fun args => encodeInstruction_of_no_form rfl, fun ins => encodeInstruction_of_no_form, ?_, ?_, fun _ _ _ => rfl,
    fun ins i form => ⟨?_, ?_, fun registers valueless => ⟨?_, fun constants => ⟨?_, ?_⟩⟩⟩⟩
  · simp [Instr.constantMax]
  · simp [Instr.constantMax]
  · rintro ⟨a, ha, reg, above⟩
    refine encodeInstruction_of_register form (Bool.eq_false_iff.mpr fun inRange => ?_)
    exact absurd (registersInRange_iff.mp inRange a ha reg) (by omega)
  · rintro ⟨a, ha, tag, nonzero⟩
    refine encodeInstruction_of_valueless form (Bool.eq_false_iff.mpr fun zero => ?_)
    exact nonzero (valuelessAreZero_iff.mp zero a ha tag)
  · rintro ⟨a, ha, constant, above⟩
    refine encodeInstruction_of_constant form (registersInRange_iff.mpr registers) (valuelessAreZero_iff.mpr valueless)
      (Bool.eq_false_iff.mpr fun inRange => ?_)
    exact absurd (constantsInRange_iff.mp inRange a ha constant) (by omega)
  · exact encodeInstruction_of_special form (registersInRange_iff.mpr registers) (valuelessAreZero_iff.mpr valueless)
      (constantsInRange_iff.mpr constants)
  · exact encodeInstruction_of_not_special form (registersInRange_iff.mpr registers)
      (valuelessAreZero_iff.mpr valueless) (constantsInRange_iff.mpr constants)

/-! ## The opcode map (R100) -/

section
variable {w : Word}

/-- The mask 0xF000 selects the group. -/
theorem and_0xF000_eq_iff {m : Word} (masked : m &&& 0xF000 = m) : w &&& 0xF000 = m ↔ fieldGroup w = fieldGroup m := by
  have group (v : Word) : fieldGroup (v &&& 0xF000) = fieldGroup v := BitVec.extractLsb'_and.trans BitVec.and_allOnes
  have addr (v : Word) : fieldAddr (v &&& 0xF000) = 0 := BitVec.extractLsb'_and.trans BitVec.and_zero
  have fields (v : Word) : formatAddr (fieldGroup v) 0 = v &&& 0xF000 := by
    rw [← formatAddr_of_fields (group v), addr v]
  constructor
  · rintro rfl
    exact (group w).symm
  · intro hg
    rw [← masked, ← fields w, hg, fields m]

/-- The mask 0xF00F selects the group and LSN. -/
theorem and_0xF00F_eq_iff {m : Word} (masked : m &&& 0xF00F = m) :
    w &&& 0xF00F = m ↔ fieldGroup w = fieldGroup m ∧ fieldLSN w = fieldLSN m := by
  have group (v : Word) : fieldGroup (v &&& 0xF00F) = fieldGroup v := BitVec.extractLsb'_and.trans BitVec.and_allOnes
  have x (v : Word) : fieldX (v &&& 0xF00F) = 0 := congrArg BitVec.toFin (BitVec.extractLsb'_and.trans BitVec.and_zero)
  have y (v : Word) : fieldY (v &&& 0xF00F) = 0 := congrArg BitVec.toFin (BitVec.extractLsb'_and.trans BitVec.and_zero)
  have lsn (v : Word) : fieldLSN (v &&& 0xF00F) = fieldLSN v := BitVec.extractLsb'_and.trans BitVec.and_allOnes
  have fields (v : Word) : formatXYNibble (fieldGroup v) 0 0 (fieldLSN v) = v &&& 0xF00F := by
    rw [← formatXYNibble_of_fields (group v) (lsn v), x v, y v]
  constructor
  · rintro rfl
    exact ⟨(group w).symm, (lsn w).symm⟩
  · rintro ⟨hg, hn⟩
    rw [← masked, ← fields w, hg, hn, fields m]

/-- The mask 0xF0FF selects the group and LSB. -/
theorem and_0xF0FF_eq_iff {m : Word} (masked : m &&& 0xF0FF = m) :
    w &&& 0xF0FF = m ↔ fieldGroup w = fieldGroup m ∧ fieldLSB w = fieldLSB m := by
  have group (v : Word) : fieldGroup (v &&& 0xF0FF) = fieldGroup v := BitVec.extractLsb'_and.trans BitVec.and_allOnes
  have x (v : Word) : fieldX (v &&& 0xF0FF) = 0 := congrArg BitVec.toFin (BitVec.extractLsb'_and.trans BitVec.and_zero)
  have lsb (v : Word) : fieldLSB (v &&& 0xF0FF) = fieldLSB v := BitVec.extractLsb'_and.trans BitVec.and_allOnes
  have fields (v : Word) : formatXByte (fieldGroup v) 0 (fieldLSB v) = v &&& 0xF0FF := by
    rw [← formatXByte_of_fields (group v) (lsb v), x v]
  constructor
  · rintro rfl
    exact ⟨(group w).symm, (lsb w).symm⟩
  · rintro ⟨hg, hk⟩
    rw [← masked, ← fields w, hg, hk, fields m]

/-- Every row but SYS's is selected by its mask alone. -/
theorem selectsRow_iff {i : Instr} (notSys : ∀ nnn, i ≠ .sys nnn) :
    selectsRow w i = true ↔ w &&& (tableRow i).2 = (tableRow i).1 := by
  cases i with
  | sys nnn => exact absurd rfl (notSys nnn)
  | _ => simp [selectsRow]

theorem selectsRow_sys_iff {nnn : Addr} :
    selectsRow w (.sys nnn) = true ↔ fieldGroup w = 0x0#4 ∧ w ≠ 0x00E0#16 ∧ w ≠ 0x00EE#16 := by
  have mask : w &&& 0xF000#16 = 0x0000#16 ↔ fieldGroup w = 0x0#4 := and_0xF000_eq_iff rfl
  simp [selectsRow, tableRow, mask]

/-- The rows that are selected by the group alone (R100). -/
theorem selectsRow_iff_group {i : Instr} {m : Word} (row : tableRow i = (m, 0xF000)) (masked : m &&& 0xF000 = m)
    (notSys : ∀ nnn, i ≠ .sys nnn) : selectsRow w i = true ↔ fieldGroup w = fieldGroup m := by
  rw [selectsRow_iff notSys, row]
  exact and_0xF000_eq_iff masked

/-- The rows of group 8 (R83, R100). -/
theorem selectsRow_iff_LSN {i : Instr} {m : Word} (row : tableRow i = (m, 0xF00F)) (masked : m &&& 0xF00F = m) :
    selectsRow w i = true ↔ fieldGroup w = fieldGroup m ∧ fieldLSN w = fieldLSN m := by
  rw [selectsRow_iff (by rintro nnn rfl; cases row), row]
  exact and_0xF00F_eq_iff masked

/-- The rows of groups E and F (R85, R86, R100). -/
theorem selectsRow_iff_LSB {i : Instr} {m : Word} (row : tableRow i = (m, 0xF0FF)) (masked : m &&& 0xF0FF = m) :
    selectsRow w i = true ↔ fieldGroup w = fieldGroup m ∧ fieldLSB w = fieldLSB m := by
  rw [selectsRow_iff (by rintro nnn rfl; cases row), row]
  exact and_0xF0FF_eq_iff masked

/-- An encoding of a form selects the form's row. -/
theorem selectsRow_encode {i : Instr} (wellFormed : i.wellFormed = true) : selectsRow (encode i) i = true := by
  cases i with
  | cls | ret => rfl
  | sys nnn =>
    have free : sysAddrTaken nnn = false := by simpa [Instr.wellFormed] using wellFormed
    exact selectsRow_sys_iff.mpr ⟨fieldGroup_formatAddr _ nnn, formatAddr_ne_of_free free⟩
  | jp _ | call _ | ldIAddr _ | jpV0Addr _ =>
    refine (selectsRow_iff_group rfl rfl (by simp)).mpr ?_
    exact fieldGroup_formatAddr _ _
  | seVxByte _ _ | sneVxByte _ _ | ldVxByte _ _ | addVxByte _ _ | rnd _ _ =>
    refine (selectsRow_iff_group rfl rfl (by simp)).mpr ?_
    exact fieldGroup_formatXByte _ _ _
  | seVxVy _ _ | sneVxVy _ _ | drw _ _ _ =>
    refine (selectsRow_iff_group rfl rfl (by simp)).mpr ?_
    exact fieldGroup_formatXYNibble _ _ _ _
  | ldVxVy _ _ | or _ _ | and _ _ | xor _ _ | addVxVy _ _ | sub _ _ | shr _ _ | subn _ _ | shl _ _ =>
    refine (selectsRow_iff_LSN rfl rfl).mpr ?_
    exact ⟨fieldGroup_formatXYNibble _ _ _ _, fieldLSN_formatXYNibble _ _ _ _⟩
  | skp _ | sknp _ | ldVxDT _ | ldVxK _ | ldDTVx _ | ldSTVx _ | addIVx _ | ldFVx _ | ldBVx _ | ldATIVx _ | ldVxATI _ =>
    refine (selectsRow_iff_LSB rfl rfl).mpr ?_
    exact ⟨fieldGroup_formatXByte _ _ _, fieldLSB_formatXByte _ _ _⟩

/-- A word selects the row of the form it decodes to, in groups 5 and 9 whatever its low nibble is (D23). -/
theorem selectsRow_of_decode {i : Instr} (h : decode w = .ok i) : selectsRow w i = true := by
  by_cases h5 : fieldGroup w = 0x5#4
  · simp only [decode, h5] at h
    cases h
    refine (selectsRow_iff_group rfl rfl (by simp)).mpr ?_
    exact h5
  by_cases h9 : fieldGroup w = 0x9#4
  · simp only [decode, h9] at h
    cases h
    refine (selectsRow_iff_group rfl rfl (by simp)).mpr ?_
    exact h9
  · obtain ⟨wellFormed, word⟩ := isEncodingOf_of_decode h
    rw [withoutUnusedNibble_of_group h5 h9] at word
    exact word ▸ selectsRow_encode wellFormed

/-- A word that selects a row of the map decodes to a form of that row. -/
theorem exists_decode_of_selectsRow {i : Instr} (h : selectsRow w i = true) :
    ∃ j, decode w = .ok j ∧ tableRow j = tableRow i := by
  cases i with
  | cls =>
    obtain rfl : w = 0x00E0#16 := BitVec.and_allOnes.symm.trans ((selectsRow_iff (by simp)).mp h)
    exact ⟨.cls, rfl, rfl⟩
  | ret =>
    obtain rfl : w = 0x00EE#16 := BitVec.and_allOnes.symm.trans ((selectsRow_iff (by simp)).mp h)
    exact ⟨.ret, rfl, rfl⟩
  | sys nnn =>
    obtain ⟨group, notCls, notRet⟩ := selectsRow_sys_iff.mp h
    exact ⟨.sys (fieldAddr w), by simp [decode_of_group0 group, decodeGroup0, notCls, notRet], rfl⟩
  | jp _ | call _ | seVxByte _ _ | sneVxByte _ _ | seVxVy _ _ | ldVxByte _ _ | addVxByte _ _ | sneVxVy _ _ | ldIAddr _
    | jpV0Addr _ | rnd _ _ | drw _ _ _ =>
    have group := (selectsRow_iff_group rfl rfl (by simp)).mp h
    refine ⟨_, by simp only [decode, group]; rfl, ?_⟩
    rfl
  | ldVxVy _ _ | or _ _ | and _ _ | xor _ _ | addVxVy _ _ | sub _ _ | shr _ _ | subn _ _ | shl _ _ =>
    obtain ⟨group, lsn⟩ := (selectsRow_iff_LSN rfl rfl).mp h
    refine ⟨_, by rw [decode_of_group8 group]; simp only [decodeGroup8, lsn]; rfl, ?_⟩
    rfl
  | skp _ | sknp _ =>
    obtain ⟨group, lsb⟩ := (selectsRow_iff_LSB rfl rfl).mp h
    refine ⟨_, by rw [decode_of_groupE group]; simp only [decodeGroupE, lsb]; rfl, ?_⟩
    rfl
  | ldVxDT _ | ldVxK _ | ldDTVx _ | ldSTVx _ | addIVx _ | ldFVx _ | ldBVx _ | ldATIVx _ | ldVxATI _ =>
    obtain ⟨group, lsb⟩ := (selectsRow_iff_LSB rfl rfl).mp h
    refine ⟨_, by rw [decode_of_groupF group]; simp only [decodeGroupF, lsb]; rfl, ?_⟩
    rfl

end

/-- Settles O6: `selectsRow_of_decode`, `exists_decode_of_selectsRow`, and the decoder's one error, which keeps the word
(`invalid_eq_of_decode_error`). -/
theorem decoderFollowsTheOpcodeMap : Obligations.DecoderFollowsTheOpcodeMap := by
  refine ⟨fun w i => selectsRow_of_decode, fun w i => exists_decode_of_selectsRow, fun w none => ?_⟩
  cases h : decode w with
  | ok i => exact absurd (selectsRow_of_decode h) (by simp [none i])
  | error e => rw [invalid_eq_of_decode_error h]

/-- Settles O1: the decoder is evaluated on each word. -/
theorem wordsWrittenFromTheMapDecode : Obligations.WordsWrittenFromTheMapDecode := by
  unfold Obligations.WordsWrittenFromTheMapDecode
  decide

end Sys2Proof
end

section
/-! PROOFS about the execution cycle (spec/40_execution_cycle.md), continued: what any tick does to STATUS, the timers and
CYCLES, that every tick answers a next state, and Execute on an arbitrary instruction value. -/

namespace Sys2Proof.Machine

/-! ## The kinds of ticks -/

theorem step_of_faulted {s : State} {c : FaultCause} (h : s.status = .faulted c) : step s = .next s := by
  simp only [step, h]

theorem step_of_waiting {s : State} (running : s.status = .running) (waiting : s.waitk ≠ 0) :
    step s = .next (heldTick s) := by
  simp only [step, running, if_neg waiting]

theorem onlyChanges_decrementTimers (s : State) : onlyChanges [.dt, .st] s (decrementTimers s) := by
  intro p hp
  cases p with
  | dt | st => simp at hp
  | regs | stack | mem => exact fun _ => rfl
  | screen => exact fun _ _ => rfl
  | _ => rfl

theorem onlyChanges_refl (ps : List Part) (s : State) : onlyChanges ps s s := by
  intro p _
  cases p with
  | regs | stack | mem => exact fun _ => rfl
  | screen => exact fun _ _ => rfl
  | _ => rfl

@[simp] theorem heldTick_status (s : State) : (heldTick s).status = s.status := by
  unfold heldTick
  split <;> rfl

@[simp] theorem heldTick_cycles (s : State) : (heldTick s).cycles = s.cycles := by
  unfold heldTick
  split <;> rfl

theorem heldTick_of_timersDuringKeyWait (s : State) :
    (Config.timersDuringKeyWait = false → heldTick s = s) ∧
      (Config.timersDuringKeyWait = true → heldTick s = decrementTimers s) := by
  unfold heldTick
  exact ⟨fun h => by rw [h]; rfl, fun h => by rw [h]; rfl⟩

theorem onlyChanges_heldTick (s : State) : onlyChanges [.dt, .st] s (heldTick s) := by
  unfold heldTick
  split
  · exact onlyChanges_decrementTimers s
  · exact onlyChanges_refl _ s

/-- Settles O14 (`heldTick` itself is the model's function): the tick is the held one (`step_of_waiting`), which is
nothing or the count down of the timers, by the free parameter. -/
theorem heldTickChangesAtMostTheTimers : Obligations.HeldTick := by
  intro s running waiting
  obtain ⟨still, counting⟩ := heldTick_of_timersDuringKeyWait s
  refine ⟨heldTick s, step_of_waiting running waiting, onlyChanges_heldTick s, by simp [continues, running], ?_, ?_⟩
  · intro h
    rw [still h]
    exact ⟨rfl, rfl⟩
  · intro h
    rw [counting h]
    exact ⟨toNat_countDown s.dt, toNat_countDown s.st⟩

/-- Settles O13: the first check of the tick is STATUS. -/
theorem faultedMachineStays : Obligations.FaultedMachineStays := by
  intro s c h
  exact ⟨step_of_faulted h, by simp [continues, h]⟩

/-- Settles O12: of the ticks of `step_cases`, those that leave a FAULTED machine leave it as it was or are fault entries
in the state at the tick's start. -/
theorem faultingTickChangesOnlyStatus : Obligations.FaultingTickChangesOnlyStatus := by
  intro s t c h faulted
  have entry {c' : FaultCause} (e : t = takeFault s c') : t = s.setStatus (.faulted c) := by
    subst e
    cases faulted
    rfl
  rcases step_cases h with ⟨-, rfl⟩ | ⟨running, -, rfl⟩ | ⟨-, -, ⟨_, _, e⟩ | ⟨_, u, _, _, ⟨running, rfl⟩ | ⟨_, _, e⟩⟩⟩
  · rw [← faulted]
    rfl
  · exact absurd (running.symm.trans ((heldTick_status s).symm.trans faulted)) nofun
  · exact entry e
  · exact absurd (running.symm.trans faulted) nofun
  · exact entry e

/-- Settles O15: of the ticks of `step_cases` only the completed one is RUNNING, without a key wait, before and after; it
adds 1 to the CYCLES that Execute left alone. -/
theorem cyclesCountCompletedTicks : Obligations.CyclesCountCompletedTicks := by
  intro s t h
  rcases step_cases h with ⟨⟨c, faulted⟩, rfl⟩ | ⟨-, waiting, rfl⟩ |
    ⟨running, notWaiting, ⟨c, _, rfl⟩ | ⟨i, u, _, executed, ⟨completed, rfl⟩ | ⟨c, _, rfl⟩⟩⟩
  · simp [faulted]
  · simp [waiting]
  · simp [takeFault]
  · obtain ⟨-, cycles⟩ := exec_keeps_keys_cycles executed
    have counted : (completeTick u).cycles = s.cycles + 1 := congrArg (· + 1) cycles
    exact counted.trans (if_pos ⟨running, notWaiting, completed⟩).symm
  · simp [takeFault]

/-! ## Every tick answers a next state -/

theorem exists_exec_next (i : Instr) (s : State) : ∃ t, exec i s = .next t := by
  rcases exec_effect i s with ⟨-, c, e⟩ | ⟨t, e, -⟩
  · exact ⟨_, e⟩
  · exact ⟨t, e⟩

theorem exists_endTick_next (s t : State) : ∃ u, endTick s (.next t) = .next u := by
  obtain ⟨completes, faults⟩ := endTick_next s t
  cases h : t.status with
  | running => exact ⟨_, completes h⟩
  | faulted c => exact ⟨_, faults c h⟩

theorem exists_step_next (s : State) : ∃ t, step s = .next t := by
  cases hs : s.status with
  | faulted c => exact ⟨s, step_of_faulted hs⟩
  | running =>
    by_cases hw : s.waitk = 0
    · rw [step_of_running hs hw]
      cases fetchInstr s with
      | error c => exact ⟨_, rfl⟩
      | ok i =>
        obtain ⟨t, ht⟩ := exists_exec_next i (advancePC s)
        simp only [ht]
        exact exists_endTick_next s t
    · exact ⟨_, step_of_waiting hs hw⟩

/-- Settles O17: each rule either completes or is a fault entry (`exec_effect`), and both end the tick in a next state. -/
theorem everyStepAnswersNext : Obligations.EveryStepAnswersNext := ⟨exists_exec_next, exists_step_next⟩

/-! ## INVALID words, and the tick from reset -/

/-- Settles O11: decoding is part of the fetch, so its fault is that of the tick (`tickFaults_of_fetchInstr_error`). -/
theorem invalidWordFaults : Obligations.InvalidWordFaults := by
  intro s ⟨running, notWaiting, even, within⟩ invalid
  have word : fetchWord s = .ok s.wordAtPC := fetchWord_ok s even within
  have rejected : decode s.wordAtPC = .error (.invalid s.wordAtPC) := decodeInstruction_type_eq_invalid_iff.mp invalid
  exact tickFaults_of_fetchInstr_error running notWaiting (by simp only [fetchInstr, word, rejected])

/-- Settles O53: the two bytes at 0x200 are 0 without a ROM, the word is SYS 0x000, and the fault of its rule is that of
the tick (O8). -/
theorem firstTickWithoutARom : Obligations.FirstTickWithoutARom := by
  have fetches : State.reset.fetches := ⟨rfl, rfl, by decide, by decide⟩
  have sys : decode State.reset.wordAtPC = .ok (.sys 0) := by decide
  obtain ⟨-, faults⟩ := stepRunsTheDecodedInstruction _ _ _ fetches sys (exec_sys _ 0)
  exact faults _ rfl

/-! ## Execute on an arbitrary instruction value (R132) -/

theorem executable?_of_no_form {ins : Instruction} (h : ins.form? = none) : ins.executable? = none := by
  simp only [Instruction.executable?, h]

/-- The (type, args) value of a form passes the checks of Execute (`sourceForm`). -/
theorem executable?_toInstruction (i : Instr) : i.toInstruction.executable? = some i := by
  obtain ⟨form, -, -, checks⟩ := sourceForm i
  simp only [Bool.and_eq_true] at checks
  obtain ⟨⟨⟨registers, -⟩, constants⟩, jump⟩ := checks
  simp [Instruction.executable?, form, registers, constants, jump]

/-- Settles O18: a shape outside the 35 is not executable, and what the decoder produces is executable as its form. -/
theorem executeOnAnyInstructionValue : Obligations.ExecuteOnAnyInstructionValue := by
  refine ⟨fun ins s noForm => ?_, fun w i s decoded => ?_⟩
  · have faults : executeInstruction ins s = .next (takeFault s .unsupportedShape) := by
      simp only [executeInstruction, executable?_of_no_form noForm]
      rfl
    exact ⟨_, faults, rfl, onlyChanges_takeFault s _⟩
  · simp only [executeInstruction, decodeInstruction_of_ok decoded, executable?_toInstruction]

end Sys2Proof.Machine
end

section
/-! PROOFS about control flow (spec/41_control_flow.md), continued: SYS, RET, CALL and their pairing, the skips on two
registers and on keys. -/

namespace Sys2Proof.Machine

/-- Settles O19: the rule is the fault entry, whatever the address. -/
theorem sysTakesItsFault : Obligations.SysTakesItsFault := fun nnn s => ruleFaults_of_exec (exec_sys s nnn)

/-! ## The stack -/

theorem onlyChanges_setStack (s : State) (k : Vector Word 16) (n : Fin 17) :
    onlyChanges [.stack, .sp] s (s.setStack k n) := by
  intro p hp
  cases p with
  | stack | sp => simp at hp
  | regs | mem => exact fun _ => rfl
  | screen => exact fun _ _ => rfl
  | _ => rfl

/-- RET leaves the popped slot as it is (D35). -/
theorem onlyChanges_setStack_sp (s : State) (n : Fin 17) : onlyChanges [.sp] s (s.setStack s.stack n) := by
  intro p hp
  cases p with
  | sp => simp at hp
  | regs | stack | mem => exact fun _ => rfl
  | screen => exact fun _ _ => rfl
  | _ => rfl

section
variable {s : State} {k : Fin 16}

/-- RET with `k + 1` slots in use (R142). -/
theorem exec_ret_of_nonempty (h : s.sp.val = k.val + 1) :
    exec .ret s = .next ((s.setStack s.stack k.castSucc).setPC s.stack[k]) := by
  rcases exec_ret_cases s with ⟨k', _, top, rule⟩ | ⟨empty, _⟩
  · obtain rfl : k' = k.val := by omega
    exact rule
  · omega

/-- CALL with `k` slots in use (R145). -/
theorem exec_call_of_room (nnn : Addr) (h : s.sp.val = k.val) :
    exec (.call nnn) s = .next ((s.setStack (s.stack.set k.val s.pc k.isLt) k.succ).setPC (addrOperand nnn)) := by
  rcases exec_call_cases s nnn with ⟨_, rule⟩ | ⟨full, _⟩
  · simp only [h] at rule
    exact rule
  · omega

end

/-- Settles O20: the two cases of RET (`exec_ret_of_nonempty`, `exec_ret_cases`). -/
theorem retPopsThePC : Obligations.RetPopsThePC := by
  intro s
  refine ⟨fun k h => ⟨_, exec_ret_of_nonempty h, rfl, rfl, ?_⟩, fun empty => ?_⟩
  · exact (onlyChanges_setStack_sp s _).append (onlyChanges_setPC _ _)
  · rcases exec_ret_cases s with ⟨k, _, top, _⟩ | ⟨_, rule⟩
    · omega
    · exact ruleFaults_of_exec rule

/-- Settles O22: the two cases of CALL (`exec_call_of_room`, `exec_call_cases`). -/
theorem callPushesThePC : Obligations.CallPushesThePC := by
  intro s nnn
  refine ⟨fun k h => ⟨_, exec_call_of_room nnn h, ?_, fun j hj => ?_, ?_, toNat_addrOperand nnn, ?_⟩, fun full => ?_⟩
  · exact Vector.getElem_set_self k.isLt
  · exact Vector.getElem_set_ne k.isLt _ fun e => hj (Fin.ext e.symm)
  · exact congrArg (· + 1) h.symm
  · exact (onlyChanges_setStack s _ _).append (onlyChanges_setPC _ _)
  · rcases exec_call_cases s nnn with ⟨room, _⟩ | ⟨_, rule⟩
    · omega
    · exact ruleFaults_of_exec rule

/-- Settles O23: CALL fills the slot at SP and RET reads the slot below the SP it finds, which is the same one as long as
SP and STACK are. -/
theorem callThenRetRestoresThePC : Obligations.CallThenRetRestoresThePC := by
  intro s nnn room
  let k : Fin 16 := ⟨s.sp.val, room⟩
  have call := exec_call_of_room (s := s) (k := k) nnn rfl
  refine ⟨_, call, fun b sp stack => ⟨_, exec_ret_of_nonempty (k := k) (congrArg Fin.val sp), ?_, rfl⟩⟩
  show b.stack[k] = s.pc
  rw [stack]
  exact Vector.getElem_set_self k.isLt

/-! ## The skips -/

/-- Settles O25: groups 5 and 9 decode by X and Y alone, and skip on the test of equality or on its negation
(`skips_of_exec`). -/
theorem skipsOnTwoRegisters : Obligations.SkipsOnTwoRegisters := by
  constructor
  · intro w s group
    exact ⟨by simp only [decode, group]; rfl, skips_of_exec (exec_seVxVy s _ _) beq_iff_eq⟩
  · intro w s group
    exact ⟨by simp only [decode, group]; rfl, skips_of_exec (exec_sneVxVy s _ _) bne_iff_ne⟩

/-- Settles O26: the two cases of each form (`exec_skp_cases`, `exec_sknp_cases`). -/
theorem skipsOnKeys : Obligations.SkipsOnKeys := by
  intro s x
  constructor
  · intro key
    obtain ⟨-, skp⟩ := (exec_skp_cases s x).resolve_right fun ⟨noKey, _⟩ => absurd key (by omega)
    obtain ⟨-, sknp⟩ := (exec_sknp_cases s x).resolve_right fun ⟨noKey, _⟩ => absurd key (by omega)
    exact ⟨skips_of_exec skp Iff.rfl, skips_of_exec sknp (by simp)⟩
  · intro noKey
    obtain ⟨-, skp⟩ := (exec_skp_cases s x).resolve_left fun ⟨key, _⟩ => absurd key (by omega)
    obtain ⟨-, sknp⟩ := (exec_sknp_cases s x).resolve_left fun ⟨key, _⟩ => absurd key (by omega)
    exact ⟨ruleFaults_of_exec skp, ruleFaults_of_exec sknp⟩

end Sys2Proof.Machine
end

section
/-! PROOFS about the loads (spec/42_loads.md), continued: the timers, the key wait, and the block stores and the block load
with their fault. -/

namespace Sys2Proof.Machine

/-! ## The timers and the key wait -/

theorem onlyChanges_setDT (s : State) (b : Byte) : onlyChanges [.dt] s (s.setDT b) := by
  intro p hp
  cases p with
  | dt => simp at hp
  | regs | stack | mem => exact fun _ => rfl
  | screen => exact fun _ _ => rfl
  | _ => rfl

theorem onlyChanges_setST (s : State) (b : Byte) : onlyChanges [.st] s (s.setST b) := by
  intro p hp
  cases p with
  | st => simp at hp
  | regs | stack | mem => exact fun _ => rfl
  | screen => exact fun _ _ => rfl
  | _ => rfl

theorem onlyChanges_setWaitk (s : State) (k : Fin 17) : onlyChanges [.waitk] s (s.setWaitk k) := by
  intro p hp
  cases p with
  | waitk => simp at hp
  | regs | stack | mem => exact fun _ => rfl
  | screen => exact fun _ _ => rfl
  | _ => rfl

/-- Settles O29: each rule is the write of one timer. -/
theorem writesOfTheTimers : Obligations.WritesOfTheTimers := fun s x =>
  ⟨⟨_, exec_ldDTVx s x, rfl, onlyChanges_setDT s _⟩, ⟨_, exec_ldSTVx s x, rfl, onlyChanges_setST s _⟩⟩

/-- Settles O30: the rule is the write of WAITK. -/
theorem keyWaitSetsTheLatch : Obligations.KeyWaitSetsTheLatch := fun s x =>
  ⟨_, exec_ldVxK s x, rfl, onlyChanges_setWaitk s _⟩

/-! ## Block stores -/

theorem onlyChanges_setMem (s : State) (m : Memory) : onlyChanges [.mem] s (s.setMem m) := by
  intro p hp
  cases p with
  | mem => simp at hp
  | regs | stack => exact fun _ => rfl
  | screen => exact fun _ _ => rfl
  | _ => rfl

/-- The state after a block store that raises no fault (R168, R169). -/
def afterStore (s : State) (bytes : List Byte) : State := s.setMem (s.mem.writeBytes s.i.toNat bytes)

section
variable (s : State) (bytes : List Byte)

theorem onlyChanges_afterStore : onlyChanges [.mem] s (afterStore s bytes) := onlyChanges_setMem s _

/-- Byte `k` of the block is at I + k. -/
theorem readByte_afterStore_inside (k : Nat) (h : k < bytes.length) :
    (afterStore s bytes).readByte (indirectAddr s k) = bytes[k] :=
  Memory.read_writeBytes_inside bytes s.mem s.i.toNat k h

theorem readByte_afterStore_outside (a : Nat)
    (h : a < indirectAddr s 0 ∨ indirectAddr s 0 + bytes.length ≤ a) : (afterStore s bytes).readByte a = s.readByte a :=
  Memory.read_writeBytes_outside bytes s.mem s.i.toNat a h

end

section
variable {s : State} {x : Reg}

theorem exec_ldBVx_of_inside (h : s.i.toNat + 2 ≤ 0xFFF) :
    exec (.ldBVx x) s = .next (afterStore s (bcdDigits (s.getV x))) := by
  rcases exec_ldBVx_cases s x with ⟨_, rule⟩ | ⟨outside, _⟩
  · exact rule
  · simp only [memSize] at outside
    omega

theorem exec_ldBVx_of_outside (h : 0xFFF < s.i.toNat + 2) :
    exec (.ldBVx x) s = .next (takeFault s .memOutOfBounds) := by
  rcases exec_ldBVx_cases s x with ⟨inside, _⟩ | ⟨_, rule⟩
  · simp only [memSize] at inside
    omega
  · exact rule

theorem exec_ldATIVx_of_inside (h : s.i.toNat + x.val ≤ 0xFFF) :
    exec (.ldATIVx x) s = .next (afterStore s (regsUpTo s x)) := by
  rcases exec_ldATIVx_cases s x with ⟨_, rule⟩ | ⟨outside, _⟩
  · exact rule
  · simp only [memSize] at outside
    omega

theorem exec_ldATIVx_of_outside (h : 0xFFF < s.i.toNat + x.val) :
    exec (.ldATIVx x) s = .next (takeFault s .memOutOfBounds) := by
  rcases exec_ldATIVx_cases s x with ⟨inside, _⟩ | ⟨_, rule⟩
  · simp only [memSize] at inside
    omega
  · exact rule

theorem exec_ldVxATI_of_inside (h : s.i.toNat + x.val ≤ 0xFFF) :
    exec (.ldVxATI x) s = .next (s.loadRegs s.i.toNat x) := by
  rcases exec_ldVxATI_cases s x with ⟨_, rule⟩ | ⟨outside, _⟩
  · exact rule
  · simp only [memSize] at outside
    omega

theorem exec_ldVxATI_of_outside (h : 0xFFF < s.i.toNat + x.val) :
    exec (.ldVxATI x) s = .next (takeFault s .memOutOfBounds) := by
  rcases exec_ldVxATI_cases s x with ⟨inside, _⟩ | ⟨_, rule⟩
  · simp only [memSize] at inside
    omega
  · exact rule

/-- LD [I], Vx puts V[r] at I + r (R169). -/
theorem readByte_afterStore_regsUpTo {r : Reg} (h : r ≤ x) :
    (afterStore s (regsUpTo s x)).readByte (indirectAddr s r.val) = s.getV r := by
  have stored : r.val < (regsUpTo s x).length := by
    rw [length_regsUpTo]
    exact Nat.lt_succ_of_le h
  rw [readByte_afterStore_inside s _ r.val stored, getElem_regsUpTo]

end

/-- Settles O31: inside memory the block is the three digits, each below 10 (`readByte_afterStore_inside`), and outside
nothing is written. -/
theorem bcdStore : Obligations.BcdStore := by
  intro s x
  have digit {n : Nat} (h : n < 10) : (BitVec.ofNat 8 n).toNat = n := Nat.mod_eq_of_lt (by omega)
  refine ⟨fun inside => ⟨_, exec_ldBVx_of_inside inside, ?_, ?_, ?_,
    readByte_afterStore_outside s (bcdDigits (s.getV x)), onlyChanges_afterStore s _⟩,
    fun outside => ruleFaults_of_exec (exec_ldBVx_of_outside outside)⟩
  · rw [readByte_afterStore_inside s _ 0 (by simp)]
    exact digit (by omega)
  · rw [readByte_afterStore_inside s _ 1 (by simp)]
    exact digit (by omega)
  · rw [readByte_afterStore_inside s _ 2 (by simp)]
    exact digit (by omega)

/-- Settles O32: inside memory the block is V0 to Vx (`readByte_afterStore_regsUpTo`), and outside nothing is written. -/
theorem registerBlockStore : Obligations.RegisterBlockStore := by
  intro s x
  refine ⟨fun inside => ⟨_, exec_ldATIVx_of_inside inside, fun r => readByte_afterStore_regsUpTo, ?_,
    onlyChanges_afterStore s _⟩, fun outside => ruleFaults_of_exec (exec_ldATIVx_of_outside outside)⟩
  rw [← length_regsUpTo s x]
  exact readByte_afterStore_outside s _

/-- Settles O34: a store writes no PC, so the fetch reads the two bytes stored there (`readByte_afterStore_regsUpTo`). -/
theorem storeIsSeenByTheNextFetch : Obligations.StoreIsSeenByTheNextFetch := by
  intro s t x inside rule r r' next stored pc even
  obtain rfl : afterStore s (regsUpTo s x) = t := by simpa using (exec_ldATIVx_of_inside inside).symm.trans rule
  have last : r'.val ≤ x.val := stored
  have pc' : s.pc.toNat + 1 = indirectAddr s r'.val := by
    simp only [indirectAddr] at pc ⊢
    omega
  have within : s.pc.toNat ≤ 0xFFE := by
    simp only [indirectAddr] at pc
    omega
  have high : (afterStore s (regsUpTo s x)).readByte s.pc.toNat = s.getV r :=
    pc ▸ readByte_afterStore_regsUpTo (show r.val ≤ x.val by omega)
  have low : (afterStore s (regsUpTo s x)).readByte (s.pc.toNat + 1) = s.getV r' :=
    pc' ▸ readByte_afterStore_regsUpTo stored
  have kept : (afterStore s (regsUpTo s x)).pc = s.pc := rfl
  rw [fetchWord_ok _ (kept ▸ even) (kept ▸ within), kept, high, low]
  rfl

/-! ## The block load -/

theorem onlyChanges_loadRegs (s : State) (a : Nat) (x : Reg) : onlyChanges [.regs] s (s.loadRegs a x) := by
  intro p hp
  cases p with
  | regs => simp at hp
  | _ => simp [Part.same]

/-- Settles O33: inside memory V0 to Vx come from memory and the others stay (`State.getV_loadRegs`), and outside nothing
is written. -/
theorem registerBlockLoad : Obligations.RegisterBlockLoad := by
  intro s x
  refine ⟨fun inside => ⟨_, exec_ldVxATI_of_inside inside, fun r loaded => ?_, fun r above => ?_,
    onlyChanges_loadRegs s _ x⟩, fun outside => ruleFaults_of_exec (exec_ldVxATI_of_outside outside)⟩
  · exact (s.getV_loadRegs _ x r).trans (if_pos loaded)
  · exact (s.getV_loadRegs _ x r).trans (if_neg (Nat.not_le_of_lt above))

end Sys2Proof.Machine
end

section
/-! PROOFS about arithmetic (spec/43_arithmetic.md), continued: the additions with a carry and to I, the subtractions, the
shifts and RND, each with the order of its writes (R131, D11, D12). -/

namespace Sys2Proof.Machine

/-! ## Writes of registers in a row -/

section
variable {s t u : State}

/-- Two operations in a row that each change the parts `ps` at most. -/
theorem onlyChanges.trans {ps : List Part} (hst : onlyChanges ps s t) (htu : onlyChanges ps t u) :
    onlyChanges ps s u := by
  intro p hp
  exact hst.append htu p (by simpa using hp)

theorem regsKeptBut.trans {rs : List Reg} (hst : regsKeptBut rs s t) (htu : regsKeptBut rs t u) :
    regsKeptBut rs s u :=
  fun r hr => (htu r hr).trans (hst r hr)

theorem regsKeptBut_setV_of_mem {rs : List Reg} (s : State) {x : Reg} (b : Byte) (h : x ∈ rs) :
    regsKeptBut rs s (s.setV x b) :=
  fun r hr => regsKeptBut_setV s x b r (by rintro (_ | ⟨_, ⟨⟩⟩); exact hr h)

end

/-- A register read after VF is written as a flag, as a number. -/
theorem toNat_getV_setV_VF (s : State) (f : Byte) (r : Reg) :
    ((s.setV VF f).getV r).toNat = if r = VF then f.toNat else (s.getV r).toNat := by
  rw [State.getV_setV, apply_ite BitVec.toNat]

/-! ## The values of the flags -/

theorem toNat_flag (p : Prop) [Decidable p] : (flag (decide p)).toNat = if p then 1 else 0 := by
  by_cases h : p
  · simp [flag, h]
  · simp [flag, h]

theorem toNat_carryFlag (a b : Byte) : (carryFlag a b).toNat = if a.toNat + b.toNat > 255 then 1 else 0 := toNat_flag _

theorem toNat_greaterFlag (a b : Byte) : (greaterFlag a b).toNat = if a.toNat > b.toNat then 1 else 0 := toNat_flag _

theorem toNat_and_one (b : Byte) : (b &&& 0x01).toNat = b.toNat % 2 := by
  rw [BitVec.toNat_and]
  exact Nat.and_one_is_mod b.toNat

theorem toNat_shlVfOf (sel : Config.ShlVfBit) (b : Byte) :
    (shlVfOf sel b).toNat = if sel = .low then b.toNat % 2 else b.toNat / 128 % 2 := by
  cases sel with
  | low => exact toNat_and_one b
  | high => exact (toNat_and_one _).trans (by simp [Nat.shiftRight_eq_div_pow])

/-! ## The additions -/

/-- Settles O36: the rule is one write of I, and the sum of words wraps modulo 2^16. -/
theorem addToTheIndexRegister : Obligations.AddToTheIndexRegister := by
  intro s x
  refine ⟨_, exec_addIVx s x, ?_, onlyChanges_setI s _⟩
  simp

/-- Settles O37: VF is written last, so it holds the carry even when Vx is VF (D12). -/
theorem addRegisters : Obligations.AddRegisters := by
  intro s x y
  refine ⟨_, exec_addVxVy s x y, fun notVF => ?_, ?_, ?_, ?_⟩
  · simp [notVF]
  · simp [toNat_carryFlag]
  · exact (regsKeptBut_setV_of_mem s _ (by simp)).trans (regsKeptBut_setV_of_mem _ _ (by simp))
  · exact (onlyChanges_setV s _ _).trans (onlyChanges_setV _ _ _)

/-! ## The subtractions -/

theorem toNat_sub_byte (a b : Byte) : (a - b).toNat = (a.toNat + 256 - b.toNat) % 256 := by
  rw [BitVec.toNat_sub]
  omega

/-- The state after VF is written as the strict flag of `V[a] > V[b]` (R186, R187). -/
def withGreaterFlag (s : State) (a b : Reg) : State := s.setV VF (greaterFlag (s.getV a) (s.getV b))

/-- A form whose rule writes that flag and then `V[x] <- V[a] - V[b]`: an operand that is VF is read as the flag (D11). -/
theorem subtracts_of_exec {i : Instr} {s : State} {x a b : Reg} (rule : exec i s =
    .next ((withGreaterFlag s a b).setV x ((withGreaterFlag s a b).getV a - (withGreaterFlag s a b).getV b))) :
    ∃ t, exec i s = .next t ∧
      (let f := if (s.getV a).toNat > (s.getV b).toNat then 1 else 0
       (t.getV x).toNat =
         ((if a = VF then f else (s.getV a).toNat) + 256 - (if b = VF then f else (s.getV b).toNat)) % 256 ∧
       (x ≠ VF → (t.getV VF).toNat = f)) ∧
      regsKeptBut [x, VF] s t ∧ onlyChanges [.regs] s t := by
  refine ⟨_, rule, ⟨?_, fun notVF => ?_⟩, ?_, ?_⟩
  · rw [State.getV_setV, if_pos rfl, toNat_sub_byte, withGreaterFlag, toNat_getV_setV_VF, toNat_getV_setV_VF,
      toNat_greaterFlag]
  · rw [State.getV_setV, if_neg notVF.symm, withGreaterFlag, toNat_getV_setV_VF, if_pos rfl, toNat_greaterFlag]
  · exact (regsKeptBut_setV_of_mem s _ (by simp)).trans (regsKeptBut_setV_of_mem _ _ (by simp))
  · exact (onlyChanges_setV s _ _).trans (onlyChanges_setV _ _ _)

/-- Settles O39: the minuend is Vx and the subtrahend Vy. -/
theorem subtractRegisters : Obligations.SubtractRegisters := fun s x y => subtracts_of_exec (exec_sub s x y)

/-- Settles O40: the minuend is Vy and the subtrahend Vx. -/
theorem subtractReversed : Obligations.SubtractReversed := fun s x y => subtracts_of_exec (exec_subn s x y)

/-! ## The shifts -/

/-- The state after a shift (R188, R189): VF is the flag `f`, then Vy is shifted by `g`, then Vx is a copy of Vy. -/
def afterShift (s : State) (x y : Reg) (f : Byte) (g : Byte → Byte) : State :=
  copyReg ((s.setV VF f).setV y (g ((s.setV VF f).getV y))) x y

theorem exec_shr_eq (s : State) (x y : Reg) :
    exec (.shr x y) s = .next (afterShift s x y (shrFlag (s.getV y)) (· >>> 1)) := exec_shr s x y

theorem shlBy_eq (sel : Config.ShlVfBit) (s : State) (x y : Reg) :
    shlBy sel x y s = afterShift s x y (shlVfOf sel (s.getV y)) (· <<< 1) := rfl

section
variable (s : State) (x y : Reg) (f : Byte) (g : Byte → Byte)

theorem getV_afterShift_y : (afterShift s x y f g).getV y = g ((s.setV VF f).getV y) := by
  simp [afterShift, copyReg]

theorem getV_afterShift_x : (afterShift s x y f g).getV x = g ((s.setV VF f).getV y) := by
  simp [afterShift, copyReg]

theorem getV_afterShift_VF (hx : x ≠ VF) (hy : y ≠ VF) : (afterShift s x y f g).getV VF = f := by
  simp [afterShift, copyReg, hx.symm, hy.symm]

theorem regsKeptBut_afterShift : regsKeptBut [x, y, VF] s (afterShift s x y f g) :=
  ((regsKeptBut_setV_of_mem s _ (by simp)).trans (regsKeptBut_setV_of_mem _ _ (by simp))).trans
    (regsKeptBut_setV_of_mem _ _ (by simp))

theorem onlyChanges_afterShift : onlyChanges [.regs] s (afterShift s x y f g) :=
  ((onlyChanges_setV s _ _).trans (onlyChanges_setV _ _ _)).trans (onlyChanges_setV _ _ _)

end

/-- Settles O41: Vy, read after VF is written, is halved into Vy and Vx (`getV_afterShift_x`, `getV_afterShift_y`). -/
theorem shiftRight : Obligations.ShiftRight := by
  intro s x y
  have half (b : Byte) : (b >>> 1).toNat = b.toNat / 2 := by simp [Nat.shiftRight_eq_div_pow]
  refine ⟨_, exec_shr_eq s x y, ⟨?_, ?_, fun hx hy => ?_⟩, regsKeptBut_afterShift s x y _ _,
    onlyChanges_afterShift s x y _ _⟩
  · rw [getV_afterShift_x, half, toNat_getV_setV_VF, shrFlag, toNat_and_one]
  · rw [getV_afterShift_y, half, toNat_getV_setV_VF, shrFlag, toNat_and_one]
  · rw [getV_afterShift_VF s x y _ _ hx hy, shrFlag, toNat_and_one]

/-- Settles O42: as O41 for either bit that SHL may copy (`toNat_shlVfOf`), with Vy doubled. -/
theorem shiftLeft : Obligations.ShiftLeft := by
  intro s x y
  have double (b : Byte) : (b <<< 1).toNat = b.toNat * 2 % 256 := by simp [Nat.shiftLeft_eq]
  refine ⟨exec_shl s x y, fun sel => ?_⟩
  rw [shlBy_eq]
  refine ⟨⟨?_, ?_, fun hx hy => ?_⟩, regsKeptBut_afterShift s x y _ _, onlyChanges_afterShift s x y _ _⟩
  · rw [getV_afterShift_x, double, toNat_getV_setV_VF, toNat_shlVfOf]
  · rw [getV_afterShift_y, double, toNat_getV_setV_VF, toNat_shlVfOf]
  · rw [getV_afterShift_VF s x y _ _ hx hy, toNat_shlVfOf]

/-! ## RND -/

theorem onlyChanges_setDraws (s : State) (n : Nat) : onlyChanges [.rng] s (s.setDraws n) := by
  intro p hp
  cases p with
  | rng => simp at hp
  | regs | stack | mem => exact fun _ => rfl
  | screen => exact fun _ _ => rfl
  | _ => rfl

/-- Settles O43: the rule takes one draw and then writes Vx; nothing is known of the draw but its count. -/
theorem randomByteMasked : Obligations.RandomByteMasked := by
  intro s x kk
  refine ⟨_, exec_rnd s x kk, by simp, rfl, regsKeptBut_setV (s.setDraws _) x _, fun p hp => ?_⟩
  exact (onlyChanges_setDraws s _).append (onlyChanges_setV _ x _) p (by simpa [or_comm] using hp)

end Sys2Proof.Machine
end

section
/-! PROOFS about the display (spec/44_display.md), continued: the second half of R205 as written fails (conflict C5). -/

namespace Sys2Proof.Machine

/-- The constructed machine with every pixel set and the font's first row, 0xF0, at I = 0. -/
def overSetPixels : State := State.reset.setScreen (Vector.replicate 32 (Vector.replicate 64 true))

theorem pixel_overSetPixels (y : Fin 32) (x : Fin 64) : overSetPixels.screen.pixel y x = true := by
  simp [overSetPixels, Screen.pixel]

/-- Refutes O47: every 1 bit of the row 0xF0 falls on a pixel that is set before both draws, so the first draw clears it
and the second, by O46, collides with nothing. -/
theorem not_secondDrawCollidesForEverySprite : ¬ Obligations.SecondDrawCollidesForEverySprite := by
  intro claim
  have first : exec (.drw 0 1 1) overSetPixels = .next (afterDrw overSetPixels 0 1 1) :=
    exec_drw_of_inside overSetPixels 0 1 (by decide) (by decide)
  have kept := regsKeptBut_afterDrw overSetPixels 0 1 1
  have v0 : (afterDrw overSetPixels 0 1 1).getV 0 = overSetPixels.getV 0 := kept 0 (by decide)
  have v1 : (afterDrw overSetPixels 0 1 1).getV 1 = overSetPixels.getV 1 := kept 1 (by decide)
  obtain ⟨u, second, -, -, noHit⟩ :=
    drawingTwiceRestoresTheScreen overSetPixels _ 0 1 0 1 1 (by decide) (by decide) first v0 v1
  have clear : u.getV VF = 0 := noHit (by simp [pixel_overSetPixels])
  have set : u.getV VF = 1 := by
    refine (claim overSetPixels _ u 0 1 0 1 1 (by decide) (by decide) first v0 v1 second).mpr ?_
    exact ⟨0, by decide, 0, by decide, by decide⟩
  exact absurd (clear.symm.trans set) (by decide)

end Sys2Proof.Machine
end

section
/-! PROOFS about the state (spec/10_state.md) and the faults (spec/60_exceptions.md), continued: the writers of VF, and the
conditions of the causes that Execute raises. -/

namespace Sys2Proof.Machine

/-- Settles O49: the writers of a register (`reg_writers`), read for VF; the block load reaches VF only as V0 to VF. -/
theorem flagRegisterHasItsWriters : Obligations.FlagRegisterHasItsWriters := by
  intro i s t h changed
  have writer : .reg VF ∈ placesWritten i := mem_placesWritten_of_changed h nofun changed
  rcases reg_writers writer with byte | ⟨y, two⟩ | ⟨x, shift⟩ | dt | ⟨x, le, load⟩ | ⟨-, flag | draw⟩
  · exact .inr (.inr (.inl byte))
  · rcases two with e | e | e | e | e | e | e | e | e
    all_goals simp [e]
  · rcases shift with e | e
    all_goals simp [e]
  · exact .inr (.inr (.inr (.inr (.inl dt))))
  · obtain rfl : x = VF := le_antisymm (Fin.le_last x) le
    exact .inr (.inr (.inr (.inr (.inr load))))
  · exact .inl flag
  · exact .inr (.inl draw)

/-! ## The causes that Execute raises (R220) -/

section
variable {i : Instr} {s t u : State} {c c' : FaultCause}

/-- Execute answers one state, so a fault entry names its cause. -/
theorem cause_of_exec (h : exec i s = .next t) (faulted : t.status = .faulted c)
    (rule : exec i s = .next (takeFault s c')) : c = c' := by
  cases h.symm.trans rule
  cases faulted
  rfl

theorem no_fault_of_exec {p : Prop} (running : s.status = .running) (h : exec i s = .next t)
    (faulted : t.status = .faulted c) (rule : exec i s = .next u) (kept : u.status = s.status) : p := by
  cases h.symm.trans rule
  exact absurd (faulted.symm.trans (kept.trans running)) nofun

end

/-- Settles O50: a form that may fault (`mayFault_forms`) has its fault in one case of its rule (`exec_call_cases` and the
like), under that case's condition; its other case leaves STATUS RUNNING. -/
theorem faultCausesHaveTheirConditions : Obligations.FaultCausesHaveTheirConditions := by
  intro i s t c running h faulted
  have size : memSize = 4096 := rfl
  have cause {c'} (rule : exec i s = .next (takeFault s c')) : c = c' := cause_of_exec h faulted rule
  have completes {u p} (rule : exec i s = .next u) (kept : u.status = s.status) : p :=
    no_fault_of_exec running h faulted rule kept
  have forms : mayFault i = true := by
    rcases exec_writes h with ⟨forms, -⟩ | writes
    · exact forms
    · exact completes h (writes .status status_not_mem_placesWritten)
  rcases mayFault_forms forms with rfl | ⟨nnn, rfl | rfl⟩ | ⟨x, y, n, rfl⟩ | ⟨x, rfl | rfl | rfl | rfl | rfl⟩
  · rcases exec_ret_cases s with ⟨_, _, _, rule⟩ | ⟨empty, rule⟩
    · exact completes rule rfl
    · exact .inr (.inr (.inl ⟨cause rule, empty, rfl⟩))
  · exact .inl ⟨cause (exec_sys s nnn), nnn, rfl⟩
  · rcases exec_call_cases s nnn with ⟨_, rule⟩ | ⟨full, rule⟩
    · exact completes rule rfl
    · exact .inr (.inl ⟨cause rule, full, nnn, rfl⟩)
  · rcases exec_drw_cases s x y n with ⟨zero, rule⟩ | ⟨_, _, rule⟩ | ⟨nonzero, outside, rule⟩
    · obtain rfl : n = 0 := BitVec.eq_of_toNat_eq zero
      exact .inr (.inr (.inr (.inl ⟨cause rule, x, y, rfl⟩)))
    · exact completes rule rfl
    · have nonzero' : n ≠ 0 := by rintro rfl; exact nonzero rfl
      exact .inr (.inr (.inr (.inr (.inr ⟨cause rule, .inr (.inr ⟨x, y, n, rfl, nonzero', by omega⟩)⟩))))
  · rcases exec_skp_cases s x with ⟨_, rule⟩ | ⟨noKey, rule⟩
    · exact completes rule (by simp [skipIf_eq])
    · exact .inr (.inr (.inr (.inr (.inl ⟨cause rule, x, noKey, .inl rfl⟩))))
  · rcases exec_sknp_cases s x with ⟨_, rule⟩ | ⟨noKey, rule⟩
    · exact completes rule (by simp [skipIf_eq])
    · exact .inr (.inr (.inr (.inr (.inl ⟨cause rule, x, noKey, .inr rfl⟩))))
  · rcases exec_ldBVx_cases s x with ⟨_, rule⟩ | ⟨outside, rule⟩
    · exact completes rule rfl
    · exact .inr (.inr (.inr (.inr (.inr ⟨cause rule, .inl ⟨x, rfl, by omega⟩⟩))))
  · rcases exec_ldATIVx_cases s x with ⟨_, rule⟩ | ⟨outside, rule⟩
    · exact completes rule rfl
    · exact .inr (.inr (.inr (.inr (.inr ⟨cause rule, .inr (.inl ⟨x, .inl rfl, by omega⟩)⟩))))
  · rcases exec_ldVxATI_cases s x with ⟨_, rule⟩ | ⟨outside, rule⟩
    · exact completes rule rfl
    · exact .inr (.inr (.inr (.inr (.inr ⟨cause rule, .inr (.inl ⟨x, .inr rfl, by omega⟩)⟩))))

end Sys2Proof.Machine
end

section
/-! PROOFS about the host's actions (spec/60_exceptions.md section 7) and construction (spec/70_reset_and_hazards.md): the
reset table, LoadRom, SetKeys and KeyEvent. -/

namespace Sys2Proof.Machine

/-! ## Construction -/

/-- Reset memory holds the font at 0x000 to 0x04F (R36, R37). -/
theorem readByte_reset_font (a : Nat) (h : a < fontRom.length) : State.reset.readByte a = fontRom[a] :=
  congrArg (Option.getD · 0) (List.getElem?_eq_getElem h)

theorem readByte_reset_above (a : Nat) (h : fontRom.length ≤ a) : State.reset.readByte a = 0 :=
  congrArg (Option.getD · 0) (List.getElem?_eq_none h)

/-- Settles O52: each field is read off `State.reset`, memory as its reset content; a later construction differs in the
count of draws alone (`onlyChanges_setDraws`). -/
theorem resetLeavesTheTable : Obligations.ResetLeavesTheTable := by
  have fontSize : fontRom.length = 80 := rfl
  refine ⟨fun r => ?_, rfl, rfl, rfl, rfl, rfl, fun k => ?_, fontSize, readByte_reset_font, fun a low _ => ?_, rfl, rfl,
    pixel_clear, rfl, rfl, fun s => ⟨onlyChanges_setDraws _ _, rfl⟩⟩
  · simp [State.reset, State.getV]
  · simp [State.reset]
  · exact readByte_reset_above a (by omega)

/-! ## LoadRom and SetKeys -/

section
variable {s : State} {bytes : List Byte}

theorem hostLoadRom_of_long (h : 4096 - 512 < bytes.length) : hostLoadRom bytes s = (s, false) := if_pos h

theorem hostLoadRom_of_fits (h : bytes.length ≤ 4096 - 512) :
    hostLoadRom bytes s = (s.setMem (s.mem.writeBytes romBase bytes), true) := if_neg (Nat.not_lt_of_le h)

theorem onlyChanges_hostLoadRom : onlyChanges [.mem] s (hostLoadRom bytes s).1 := by
  rcases Nat.lt_or_ge (4096 - 512) bytes.length with long | fits
  · rw [hostLoadRom_of_long long]
    exact onlyChanges_refl _ s
  · rw [hostLoadRom_of_fits fits]
    exact onlyChanges_setMem s _

end

/-- Settles O55: a ROM that fits is one block write at 0x200 (`Memory.read_writeBytes_inside` and `_outside`). -/
theorem loadRomCopiesTheRom : Obligations.LoadRomCopiesTheRom := by
  intro s bytes
  refine ⟨hostLoadRom_of_long, fun fits => ?_⟩
  rw [hostLoadRom_of_fits fits]
  exact ⟨rfl, Memory.read_writeBytes_inside bytes s.mem romBase, Memory.read_writeBytes_outside bytes s.mem romBase,
    onlyChanges_setMem s _⟩

theorem onlyChanges_setKeys (s : State) (w : Word) : onlyChanges [.keys] s (s.setKeys w) := by
  intro p hp
  cases p with
  | keys => simp at hp
  | regs | stack | mem => exact fun _ => rfl
  | screen => exact fun _ _ => rfl
  | _ => rfl

/-! ## KeyEvent (R130) -/

section
variable {s : State} {x : Reg} (k : Fin 16)

theorem hostKeyEvent_of_key : hostKeyEvent k.val s = .next (keyEvent k s) := dif_pos k.isLt

theorem keyEvent_of_not_waiting (h : s.waitk = 0) : keyEvent k s = s := dif_pos h

/-- A key event while Vx waits. -/
theorem keyEvent_of_waiting (h : s.waitk = x.succ) :
    keyEvent k s = (s.setV x (BitVec.ofNat 8 k.val)).setWaitk 0 := by
  simp [keyEvent, h]

theorem regsKeptBut_keyEvent (h : s.waitk = x.succ) : regsKeptBut [x] s (keyEvent k s) :=
  keyEvent_of_waiting k h ▸ regsKeptBut_setV s x _

theorem onlyChanges_keyEvent (h : s.waitk = x.succ) : onlyChanges [.regs, .waitk] s (keyEvent k s) :=
  keyEvent_of_waiting k h ▸ (onlyChanges_setV s x _).append (onlyChanges_setWaitk _ 0)

end

/-- Settles O54: KeyEvent by WAITK (`keyEvent_of_not_waiting`, `keyEvent_of_waiting`), for the numbers that are keys. -/
theorem keyEventEndsTheWait : Obligations.KeyEventEndsTheWait := by
  intro s k
  refine ⟨fun key idle => ?_, fun key x wait => ?_, fun noKey => dif_neg (by omega)⟩
  · rw [hostKeyEvent_of_key ⟨k, Nat.lt_succ_of_le key⟩, keyEvent_of_not_waiting _ idle]
  · have waits : s.waitk = x.succ := Fin.ext wait
    let pressed : Fin 16 := ⟨k, Nat.lt_succ_of_le key⟩
    refine ⟨_, hostKeyEvent_of_key pressed, ?_, ?_, regsKeptBut_keyEvent _ waits, onlyChanges_keyEvent _ waits⟩
    · simp [keyEvent_of_waiting _ waits, pressed]
      omega
    · rw [keyEvent_of_waiting _ waits]
      rfl

/-- Settles O56: a key event writes the waiting register, if there is one, and WAITK. -/
theorem hostWritesOnlyItsParts : Obligations.HostWritesOnlyItsParts := by
  intro s
  refine ⟨fun bytes => onlyChanges_hostLoadRom, fun mask => ⟨rfl, onlyChanges_setKeys s mask⟩, fun k => ?_⟩
  rcases Fin.eq_zero_or_eq_succ s.waitk with idle | ⟨x, waits⟩
  · rw [keyEvent_of_not_waiting k idle]
    exact ⟨[], Nat.zero_le 1, fun _ _ => rfl, onlyChanges_refl _ s⟩
  · exact ⟨[x], le_refl 1, regsKeptBut_keyEvent k waits, onlyChanges_keyEvent k waits⟩

end Sys2Proof.Machine
end

section
/-! PROOFS about the invariant of the state (spec/10_state.md R25, R38): reset meets it, every step and every action of the
host keeps it, and so it holds in every reachable state. -/

namespace Sys2Proof.Machine

/-- Settles O57: reset memory lists nothing, PC is 0x200 and every slot is 0. -/
theorem resetMeetsTheInvariant : Obligations.ResetMeetsTheInvariant :=
  ⟨Memory.wf_reset, by decide, by decide, by decide⟩

section
variable {s t : State}

/-- The invariant speaks of memory, PC and the stack alone. -/
theorem State.Inv.of_eq (inv : s.Inv) (mem : t.mem = s.mem) (pc : t.pc = s.pc) (stack : t.stack = s.stack) : t.Inv := by
  obtain ⟨memWf, pcBound, even, bound⟩ := inv
  exact ⟨mem ▸ memWf, pc ▸ pcBound, stack ▸ even, stack ▸ bound⟩

/-- A slot holds an address that CALL may push: even and at most 0x1000. -/
def IsReturnAddress (w : Word) : Prop := w.toNat % 2 = 0 ∧ w.toNat ≤ 0x1000

theorem State.Inv.slot (inv : s.Inv) (k : Fin 16) : IsReturnAddress s.stack[k] := ⟨inv.stackEven k, inv.stackBound k⟩

/-! ## Execute -/

/-- A skip from a return address leads to 0x1002 at most (R140). -/
theorem pcBound_skipIf (inv : s.Inv) (pc : IsReturnAddress s.pc) (c : Bool) : (skipIf s c).pc.toNat ≤ 0x10FE := by
  obtain ⟨-, bound⟩ := pc
  have next : (s.pc + 2).toNat = s.pc.toNat + 2 := BitVec.toNat_add_of_lt (by simp; omega)
  rw [skipIf_eq]
  cases c with
  | true => exact next ▸ (by omega : s.pc.toNat + 2 ≤ 0x10FE)
  | false => exact inv.pcBound

section
variable {i : Instr} (inv : s.Inv) (pc : IsReturnAddress s.pc) (h : exec i s = .next t)
include inv h

theorem memWf_of_exec : t.mem.wf = true := by
  by_cases same : t.mem = s.mem
  · exact same ▸ inv.memWf
  rcases mem_writers (mem_placesWritten_of_changed h nofun same) with ⟨x, rfl⟩ | ⟨x, rfl⟩
  · rcases exec_ldBVx_cases s x with ⟨inside, rule⟩ | ⟨_, rule⟩
    · cases h.symm.trans rule
      exact Memory.wf_writeBytes inv.memWf inside
    · cases h.symm.trans rule
      exact inv.memWf
  · rcases exec_ldATIVx_cases s x with ⟨inside, rule⟩ | ⟨_, rule⟩
    · cases h.symm.trans rule
      exact Memory.wf_writeBytes inv.memWf (by simpa using inside)
    · cases h.symm.trans rule
      exact inv.memWf

include pc

/-- The only slot that Execute writes gets the PC that CALL pushes. -/
theorem slot_of_exec (k : Fin 16) : IsReturnAddress t.stack[k] := by
  by_cases same : t.stack = s.stack
  · exact same ▸ inv.slot k
  obtain ⟨nnn, rfl⟩ := stack_writers (mem_placesWritten_of_changed h nofun same)
  rcases exec_call_cases s nnn with ⟨room, rule⟩ | ⟨_, rule⟩
  · cases h.symm.trans rule
    show IsReturnAddress (s.stack.set s.sp.val s.pc room)[k.val]
    rw [Vector.getElem_set]
    split
    · exact pc
    · exact inv.slot k
  · cases h.symm.trans rule
    exact inv.slot k

/-- The largest PC is the target of JP V0, addr (R25, R144). -/
theorem pcBound_of_exec : t.pc.toNat ≤ 0x10FE := by
  have reached {u : State} (rule : exec i s = .next u) (bound : u.pc.toNat ≤ 0x10FE) : t.pc.toNat ≤ 0x10FE := by
    cases h.symm.trans rule
    exact bound
  by_cases same : t.pc = s.pc
  · exact same ▸ inv.pcBound
  rcases pc_writers (mem_placesWritten_of_changed h nofun same) with
    rfl | ⟨nnn, rfl | rfl | rfl⟩ | ⟨x, kk, rfl | rfl⟩ | ⟨x, y, rfl | rfl⟩ | ⟨x, rfl | rfl⟩
  · rcases exec_ret_cases s with ⟨k, room, _, rule⟩ | ⟨_, rule⟩
    · exact reached rule (le_trans (inv.stackBound ⟨k, room⟩) (by decide))
    · exact reached rule inv.pcBound
  · refine reached (exec_jp s nnn) ((toNat_addrOperand nnn).trans_le ?_)
    omega
  · refine reached (exec_jpV0Addr s nnn) ((toNat_jumpV0Target s nnn).trans_le ?_)
    omega
  · rcases exec_call_cases s nnn with ⟨_, rule⟩ | ⟨_, rule⟩
    · refine reached rule ((toNat_addrOperand nnn).trans_le ?_)
      omega
    · exact reached rule inv.pcBound
  · exact reached (exec_seVxByte s x kk) (pcBound_skipIf inv pc _)
  · exact reached (exec_sneVxByte s x kk) (pcBound_skipIf inv pc _)
  · exact reached (exec_seVxVy s x y) (pcBound_skipIf inv pc _)
  · exact reached (exec_sneVxVy s x y) (pcBound_skipIf inv pc _)
  · rcases exec_skp_cases s x with ⟨_, rule⟩ | ⟨_, rule⟩
    · exact reached rule (pcBound_skipIf inv pc _)
    · exact reached rule inv.pcBound
  · rcases exec_sknp_cases s x with ⟨_, rule⟩ | ⟨_, rule⟩
    · exact reached rule (pcBound_skipIf inv pc _)
    · exact reached rule inv.pcBound

/-- Execute keeps the invariant when PC is an address that CALL may push. -/
theorem inv_of_exec : t.Inv :=
  ⟨memWf_of_exec inv h, pcBound_of_exec inv pc h, fun k => (slot_of_exec inv pc h k).1,
    fun k => (slot_of_exec inv pc h k).2⟩

end

/-! ## The tick -/

/-- After a fetch the advanced PC is even and at most 0x1000 (R121, R123). -/
theorem isReturnAddress_advancePC {i : Instr} (fetched : fetchInstr s = .ok i) : IsReturnAddress (advancePC s).pc := by
  have even : s.pc.toNat % 2 = 0 := by
    by_contra odd
    have fault := fetchInstr_of_fetchWord_error (fetchWord_of_odd (s := s) (by omega))
    exact absurd (fault.symm.trans fetched) nofun
  have within : s.pc.toNat ≤ 0xFFE := by
    by_contra above
    have fault := fetchInstr_of_fetchWord_error (fetchWord_of_above even (by omega))
    exact absurd (fault.symm.trans fetched) nofun
  have next : (advancePC s).pc.toNat = s.pc.toNat + 2 := BitVec.toNat_add_of_lt (by simp; omega)
  exact ⟨by omega, by omega⟩

theorem inv_takeFault (inv : s.Inv) (c : FaultCause) : (takeFault s c).Inv := inv.of_eq rfl rfl rfl

theorem inv_advancePC {i : Instr} (inv : s.Inv) (fetched : fetchInstr s = .ok i) : (advancePC s).Inv := by
  obtain ⟨-, bound⟩ := isReturnAddress_advancePC fetched
  exact ⟨inv.memWf, le_trans bound (by decide), inv.stackEven, inv.stackBound⟩

theorem inv_heldTick (inv : s.Inv) : (heldTick s).Inv := by
  unfold heldTick
  split
  · exact inv.of_eq rfl rfl rfl
  · exact inv

end

/-- Settles O58: of the ticks of `step_cases` only the completed one writes what the invariant speaks of, and Execute keeps
it after the fetch (`inv_of_exec`). -/
theorem stepKeepsTheInvariant : Obligations.StepKeepsTheInvariant := by
  intro s t inv h
  rcases step_cases h with ⟨-, rfl⟩ | ⟨-, -, rfl⟩ |
    ⟨-, -, ⟨c, _, rfl⟩ | ⟨i, u, fetched, executed, ⟨-, rfl⟩ | ⟨c, _, rfl⟩⟩⟩
  · exact inv
  · exact inv_heldTick inv
  · exact inv_takeFault inv c
  · have kept : u.Inv := inv_of_exec (inv_advancePC inv fetched) (isReturnAddress_advancePC fetched) executed
    exact kept.of_eq rfl rfl rfl
  · exact inv_takeFault inv c

/-! ## Runs -/

theorem inv_hostLoadRom {s : State} (inv : s.Inv) (bytes : List Byte) : (hostLoadRom bytes s).1.Inv := by
  rcases Nat.lt_or_ge (4096 - 512) bytes.length with long | fits
  · rw [hostLoadRom_of_long long]
    exact inv
  · rw [hostLoadRom_of_fits fits]
    have inside : romBase + bytes.length ≤ memSize := by
      simp only [romBase, memSize]
      omega
    exact ⟨Memory.wf_writeBytes inv.memWf inside, inv.pcBound, inv.stackEven, inv.stackBound⟩

theorem inv_keyEvent {s : State} (inv : s.Inv) (k : Fin 16) : (keyEvent k s).Inv := by
  unfold keyEvent
  split
  · exact inv
  · exact inv.of_eq rfl rfl rfl

theorem inv_of_makeMove {s t : State} (inv : s.Inv) {m : Move} (h : makeMove m s = .next t) : t.Inv := by
  cases m with
  | tick => exact stepKeepsTheInvariant s t inv h
  | construct =>
    cases h
    exact resetMeetsTheInvariant.of_eq rfl rfl rfl
  | loadRom bytes =>
    cases h
    exact inv_hostLoadRom inv bytes
  | setKeys mask =>
    cases h
    exact inv.of_eq rfl rfl rfl
  | keyEvent k =>
    simp only [makeMove, hostKeyEvent] at h
    split at h
    · cases h
      exact inv_keyEvent inv _
    · cases h

/-- Settles O59, by induction on the run: every move keeps the invariant (`inv_of_makeMove`). -/
theorem reachableStatesMeetTheInvariant : Obligations.ReachableStatesMeetTheInvariant := by
  intro s reachable
  induction reachable with
  | construct => exact resetMeetsTheInvariant
  | move m _ h ih => exact inv_of_makeMove ih h

/-- Settles O60: RET takes PC from a slot, and the slots hold return addresses. -/
theorem retLeavesAnEvenPC : Obligations.RetLeavesAnEvenPC := by
  intro s t inv nonempty h
  rcases exec_ret_cases s with ⟨k, room, _, rule⟩ | ⟨empty, _⟩
  · cases h.symm.trans rule
    exact inv.slot ⟨k, room⟩
  · exact absurd empty nonempty

end Sys2Proof.Machine
end
